-- ==== Sys2Proof/Word.lean ====
section
/-! DEFINITION. The word and byte types of the block (00_scope.md R5, R6). -/

namespace Sys2Proof

/-- A register, a dimension, a size or an address of the block: 32 bits, unsigned (R5). -/
abbrev Word := BitVec 32

/-- A byte of the buffer memory, or a run token (R40, R61). -/
abbrev Byte := BitVec 8

end Sys2Proof
end

