-- ==== Sys2Proof/Config.lean ====
section
/-! DEFINITION. What one implementation of the block fixes, and the values the spec leaves free.
MEM_BYTES, the spec's one open parameter, is a field of State (log entry 2), so that every statement about every state is a
statement about every memory size. -/

namespace Sys2Proof.Config

/-- MAX_RUN: the longest run of one token (00_scope.md R5, 41_rle_encode.md R83). -/
def maxRun : Nat := 128

/-- AREA_MAX: the largest legal `width * height` (00_scope.md R5). -/
def areaMax : Nat := 2 ^ 32 - 1

/-- REG_WINDOW: the size in bytes of the register window (00_scope.md R5, 10_state.md R14). -/
def regWindow : Nat := 64

/-- A byte the spec calls "any value": `freeByte d` is the d-th such byte that a run draws. Nothing constrains it
(41_rle_encode.md R82, 42_rle_decode.md R92, 70_reset_and_hazards.md R123, R126; log entry 3). -/
opaque freeByte : Nat → Byte

end Sys2Proof.Config
end

