-- ==== Sys2Proof/Syntax.lean ====
section
/-! DEFINITION. The instructions of the block: the five commands of the host and the two run tokens of the decoder, one
constructor per row of spec/opcode_table.json. -/

namespace Sys2Proof

/-- One row of the opcode table. A command has no operand in its word: all its operands are configuration registers
(30_encoding.md R59). A token is written by its run length, as in `RUN v, n` (R68). -/
inductive Instr where
  | getBit
  | setBit
  | packedBytes
  | compress
  | decompress
  | run0 (len : Nat)
  | run1 (len : Nat)
  deriving DecidableEq, Repr

/-- An encoded instruction: a command word, as written to CMD (R59), or a run token, one byte of a token stream (R61). -/
inductive Encoded where
  | cmdw (w : Word)
  | token (b : Byte)
  deriving DecidableEq, Repr

end Sys2Proof
end

