-- ==== Sys2Proof/WellFormed.lean ====
section
/-! DEFINITION. Which instructions the spec gives a meaning and an encoding. -/

namespace Sys2Proof

/-- `RUN v, n` denotes a token exactly when `n` is in 1 .. 128 (30_encoding.md R62, R68). -/
abbrev lengthEncodable (len : Nat) : Prop := 1 ≤ len ∧ len ≤ Config.maxRun

/-- The well-formed instructions. A command has no operand that could be ill-formed. -/
def Instr.wellFormed : Instr → Bool
  | .getBit => true
  | .setBit => true
  | .packedBytes => true
  | .compress => true
  | .decompress => true
  | .run0 len => decide (lengthEncodable len)
  | .run1 len => decide (lengthEncodable len)

end Sys2Proof
end

