-- ==== Sys2Proof/Decode.lean ====
section
/-! DEFINITION. The decoder, from 30_encoding.md R59 to R65, and the encoder written from the same tables. -/

namespace Sys2Proof

/-- Why a command word is not a defined command (R65). -/
inductive DecodeError where
  /-- Z, bits [31:4], is not 0. -/
  | reservedBits
  /-- Z is 0 and OP is 0x0 or 0x6 .. 0xF. -/
  | undefinedOp
  deriving DecidableEq, Repr

/-- OP, bits [3:0] of a command word (R59). -/
def opField (w : Word) : BitVec 4 := w.extractLsb' 0 4

/-- Z, bits [31:4] of a command word, which must be 0 (R59). -/
def zField (w : Word) : BitVec 28 := w.extractLsb' 4 28

/-- The opcode map (R60), and the words that are not in it (R65). -/
def decodeCommand (w : Word) : Except DecodeError Instr :=
  if zField w ≠ 0 then .error .reservedBits
  else if opField w = 0x1 then .ok .getBit
  else if opField w = 0x2 then .ok .setBit
  else if opField w = 0x3 then .ok .packedBytes
  else if opField w = 0x4 then .ok .compress
  else if opField w = 0x5 then .ok .decompress
  else .error .undefinedOp

/-- V, bit 7 of a token: the run value (R61, R62). -/
def tokenValue (tok : Byte) : Bool := tok.getLsbD 7

/-- The run length of a token: bits 6:0, unsigned, plus one (R62). -/
def tokenLength (tok : Byte) : Nat := (tok.extractLsb' 0 7).toNat + 1

/-- Every byte is a token: RUN0 or RUN1, named by its V bit (R63, R64). -/
def decodeToken (tok : Byte) : Instr :=
  if tokenValue tok then .run1 (tokenLength tok) else .run0 (tokenLength tok)

/-- The decoder over both formats: total, rejecting by name. -/
def decode : Encoded → Except DecodeError Instr
  | .cmdw w => decodeCommand w
  | .token b => .ok (decodeToken b)

/-- The token of a run of value `v` and length `len`: `(v << 7) | (len - 1)` (R61). -/
def tokenByte (v : Bool) (len : Nat) : Byte :=
  ((BitVec.ofBool v).setWidth 8 <<< 7) ||| BitVec.ofNat 8 (len - 1)

/-- The command word of an opcode: OP in bits [3:0], Z = 0 (R59). -/
def commandWord (op : BitVec 4) : Word := op.setWidth 32

/-- The encoder (R60, R61, R63). -/
def encode : Instr → Encoded
  | .getBit => .cmdw (commandWord 0x1)
  | .setBit => .cmdw (commandWord 0x2)
  | .packedBytes => .cmdw (commandWord 0x3)
  | .compress => .cmdw (commandWord 0x4)
  | .decompress => .cmdw (commandWord 0x5)
  | .run0 len => .token (tokenByte false len)
  | .run1 len => .token (tokenByte true len)

/-- The bits of an opcode-table row as the format of their width holds them: one byte is a run token, anything wider is a
command word (R66). -/
def ofTableBits (nbits w : Nat) : Encoded :=
  if nbits ≤ 8 then .token (BitVec.ofNat 8 w) else .cmdw (BitVec.ofNat 32 w)

/-- The instruction the decoder reads from the bits of a row of spec/opcode_table.json. -/
def decodeTableWord (nbits w : Nat) : Option Instr :=
  match decode (ofTableBits nbits w) with
  | .ok i => some i
  | .error _ => none

end Sys2Proof
end

