-- ==== Sys2Proof/Machine/State.lean ====
section
/-! DEFINITION. The state of the block and of its host, as plain data, the reasons a step can stop, and the state right
after reset (10_state.md; 70_reset_and_hazards.md R121). -/

namespace Sys2Proof.Machine

/-- PHASE, the core's sequencing state (10_state.md R13). BUSY of STATUS is 1 exactly when it is `busy`. -/
inductive Phase where
  | idle
  | busy
  deriving DecidableEq, Repr

/-- The completion codes 0 .. 9 of STATUS.ERR, in the order of their numbers (60_exceptions.md R96). Codes 10 .. 15 are
never produced (R107). -/
inductive ErrCode where
  | ok
  | opcode
  | format
  | dimension
  | bus
  | overlap
  | range
  | overflow
  | overrun
  | underrun
  deriving DecidableEq, Repr

/-- The read/write registers of the window (10_state.md R14), which the host writes and the core only reads. FLAGS and
BIT_VALUE hold the bits that are implemented: [1:0] (R21) and [0] (R26). -/
structure ConfigRegs where
  width : Word
  height : Word
  flags : BitVec 2
  srcAddr : Word
  srcSize : Word
  dstAddr : Word
  bitIndex : Word
  bitValue : BitVec 1
  deriving DecidableEq, Repr

/-- The read-only result registers of the window (10_state.md R27 to R30). OUT_FLAGS holds its bits [1:0] (R28). -/
structure ResultRegs where
  result : Word
  outFlags : BitVec 2
  outCsize : Word
  errInfo : Word
  deriving DecidableEq, Repr

/-- The encoder's hidden state (10_state.md R34), as the loop of 41_rle_encode.md R79 keeps it. -/
structure Encoder where
  /-- The scan position: the next stream bit to look at. -/
  i : Nat
  /-- The value of the run in progress. -/
  v : Bool
  /-- The length of the run in progress. -/
  len : Nat
  /-- The number of tokens written. -/
  count : Nat
  deriving DecidableEq, Repr

/-- The decoder's hidden state (10_state.md R34), as the loop of 42_rle_decode.md R87 keeps it. -/
structure Decoder where
  /-- The index of the next token. -/
  k : Nat
  /-- The number of bits produced. -/
  pos : Nat
  deriving DecidableEq, Repr

/-- The internal sequencing state of a command. It exists only inside a command (70_reset_and_hazards.md R121); `off`
outside the loops of the two codec commands. -/
inductive Sequencer where
  | off
  | encoding (e : Encoder)
  | decoding (d : Decoder)
  deriving DecidableEq, Repr

/-- Which agent moves next (log entry 6). `core` is the atomic core step of 10_state.md R38; `coreUnit` is one internal
action of it (R34; log entry 7): entering a codec command's loop, one iteration, or the command's end. -/
inductive Turn where
  | host
  | core
  | coreUnit
  deriving DecidableEq, Repr

/-- What the host can do to the block and to the buffer memory (10_state.md R15; 20_memory.md R40; 30_encoding.md R67;
70_reset_and_hazards.md R121). A register access carries its offset in the window and its width in bytes. A memory access is
one byte: the spec gives the host's accesses to the buffer memory no width, so a wider one is several of these (DESIGN
CHOICE, log entry 15). -/
inductive HostOp where
  | regRead (offset bytes : Nat)
  | regWrite (offset bytes : Nat) (data : Word)
  /-- WAIT: read STATUS until BUSY = 0 (R67). -/
  | wait
  | memRead (addr : Word)
  | memWrite (addr : Word) (v : Byte)
  /-- The platform asserts the reset input. -/
  | assertReset
  deriving DecidableEq, Repr

/-- A value the host has read, and where from. -/
inductive Seen where
  | reg (offset : Nat) (v : Word)
  | mem (addr : Word) (v : Byte)
  deriving DecidableEq, Repr

/-- A range of byte addresses `[base, base + len)` (20_memory.md R45). -/
structure Window where
  base : Nat
  len : Nat
  deriving DecidableEq, Repr

/-- The windows of a command whose BUSY interval is open: it was accepted, and the host has not yet read STATUS with
BUSY = 0 (70_reset_and_hazards.md R126; log entry 10). -/
structure BusyInterval where
  src : Window
  dst : Window
  deriving DecidableEq, Repr

/-- The buffer memory: the bytes that differ from what an unlisted address reads as, by rising address. -/
abbrev Memory := List Host.Cell

/-- The machine: the block, the buffer memory, and the host's pending operations. -/
structure State where
  /-- WIDTH, HEIGHT, FLAGS, SRC_ADDR, SRC_SIZE, DST_ADDR, BIT_INDEX, BIT_VALUE. -/
  cfg : ConfigRegs
  /-- RESULT, OUT_FLAGS, OUT_CSIZE, ERR_INFO. -/
  out : ResultRegs
  /-- PHASE, and so STATUS.BUSY (R13). -/
  phase : Phase
  /-- STATUS.DONE (R18). -/
  done : Bool
  /-- STATUS.ERR (R18). -/
  err : ErrCode
  /-- LATCHED_CMD (R13). -/
  latchedCmd : Word
  /-- The hidden state of a running codec command (R34). -/
  seq : Sequencer
  /-- The buffer memory (20_memory.md R40). -/
  mem : Memory
  /-- The address of the last byte of the buffer memory: MEM_BYTES is one more, so 1 ≤ MEM_BYTES ≤ 2^32 (R40). -/
  lastAddr : Word
  /-- The reset input is asserted (70_reset_and_hazards.md R121). -/
  resetIn : Bool
  /-- The model's own: which agent moves in the coming steps (log entry 6). -/
  turns : List Turn
  /-- The open BUSY intervals, newest first (70_reset_and_hazards.md R126; log entry 10). -/
  unobserved : List BusyInterval
  /-- The host's pending operations, first one first. -/
  program : List HostOp
  /-- What the host has read, newest first. -/
  seen : List Seen
  /-- The model's own: how many free bytes have been drawn (log entry 3). -/
  draws : Nat
  deriving DecidableEq, Repr

/-- Why the machine stops with a fault. -/
inductive Fault where
  /-- The host accessed the buffer memory at an address that does not exist (20_memory.md R40). Raised by hostMemRead and
  hostMemWrite. That such an access stops is the model's own (DESIGN CHOICE, log entry 17). Safe: the spec gives it no
  effect. -/
  | noSuchAddress (addr : Word)
  deriving DecidableEq, Repr

/-- Why a step is given no meaning. -/
inductive Refusal where
  /-- An instruction with no meaning in the model yet. Raised by exec's refused arms. Safe. -/
  | notModelled (mnemonic : String)
  /-- A sub-word, misaligned or out-of-window register access (10_state.md R15; 20_memory.md R44). Raised by hostRegRead and
  hostRegWrite. Safe: "A model refuses it". -/
  | badRegisterAccess (offset bytes : Nat)
  /-- A host write into a window of a command whose BUSY interval is open (70_reset_and_hazards.md R126). Raised by
  hostMemWrite. Safe: "A model refuses such a run". -/
  | windowHazard (addr : Word)
  /-- A run token was given to a machine with no DECOMPRESS in progress that has a token left, or a command was to be
  resumed that is not in progress (log entry 9). Raised by execRun0, execRun1 and the resumption of a command. Safe: no state of a
  machine that the spec describes gets there. -/
  | noCommandInProgress
  deriving DecidableEq, Repr

/-- The configuration registers after reset (10_state.md R14). -/
def ConfigRegs.zero : ConfigRegs :=
  { width := 0, height := 0, flags := 0, srcAddr := 0, srcSize := 0, dstAddr := 0, bitIndex := 0, bitValue := 0 }

/-- The result registers after reset, and after the acceptance of a command (10_state.md R14, R37). -/
def ResultRegs.zero : ResultRegs :=
  { result := 0, outFlags := 0, outCsize := 0, errInfo := 0 }

/-- The machine right after reset (10_state.md R39; 70_reset_and_hazards.md R121). The memory's contents and size, and the
host's pending operations, are no part of the block's reset: log entries 1, 2, 5 and 6. -/
def State.reset : State :=
  { cfg := ConfigRegs.zero
    out := ResultRegs.zero
    phase := .idle
    done := false
    err := .ok
    latchedCmd := 0
    seq := .off
    mem := []
    lastAddr := 0xFFFFFFFF
    resetIn := false
    turns := []
    unobserved := []
    program := []
    seen := []
    draws := 0 }

end Sys2Proof.Machine
end

