-- ==== Sys2Proof/Machine/Ops.lean ====
section
/-! DEFINITION. The shared operations: the buffer memory (00_scope.md R9, 20_memory.md), the bit primitives
(40_bit_array.md R69, R70), the free bytes, command acceptance (10_state.md R37) and the two ways a command ends
(00_scope.md R10; 60_exceptions.md R97, R111). -/

namespace Sys2Proof.Machine

/-- What a byte that no entry lists reads as. DESIGN CHOICE, log entry 1: the contents at power-on are the platform's
(70_reset_and_hazards.md R124). -/
def unlistedByte : Byte := 0

/-- The canonical form: addresses strictly rising, and no entry that an unlisted address would read as. -/
abbrev Memory.wf (m : Memory) : Prop :=
  m.Pairwise (fun c d => c.1 < d.1) ∧ ∀ c ∈ m, c.2 ≠ unlistedByte

/-- MEM_BYTES (20_memory.md R40). -/
def memBytes (s : State) : Nat := s.lastAddr.toNat + 1

/-- `MemRead(addr, 1)` (00_scope.md R9). -/
def Memory.read : Memory → Nat → Byte
  | [], _ => unlistedByte
  | (b, w) :: m, a => if a = b then w else Memory.read m a

/-- `MemWrite(addr, 1, v)` (00_scope.md R9), keeping the canonical form. -/
def Memory.write : Memory → Nat → Byte → Memory
  | [], a, v => if v = unlistedByte then [] else [(a, v)]
  | (b, w) :: m, a, v =>
    if a < b then (if v = unlistedByte then (b, w) :: m else (a, v) :: (b, w) :: m)
    else if a = b then (if v = unlistedByte then m else (a, v) :: m)
    else (b, w) :: Memory.write m a v

/-- `get_bit(base, i)` (40_bit_array.md R69): byte `i div 8`, bit `7 - (i mod 8)`. -/
def Memory.getBit (m : Memory) (base i : Nat) : Bool :=
  (m.read (base + i / 8)).getLsbD (7 - i % 8)

/-- The byte `set_bit` writes: OR with the mask to set, AND with its complement to clear (40_bit_array.md R70). -/
def withBit (old : Byte) (i : Nat) (v : Bool) : Byte :=
  let mask : Byte := 1#8 <<< (7 - i % 8)
  if v then old ||| mask else old &&& ~~~mask

/-- `set_bit(base, i, v)` (40_bit_array.md R70). -/
def Memory.setBit (m : Memory) (base i : Nat) (v : Bool) : Memory :=
  m.write (base + i / 8) (withBit (m.read (base + i / 8)) i v)

/-- `set_bit` of the `len` stream bits from `pos` on, in stream order: the inner loops of 42_rle_decode.md R87. -/
def Memory.setBits (m : Memory) (base pos : Nat) : Nat → Bool → Memory
  | 0, _ => m
  | len + 1, v => Memory.setBits (m.setBit base pos v) base (pos + 1) len v

/-- The empty window, which holds no address. -/
def Window.none : Window := { base := 0, len := 0 }

/-- The address lies in the window (R45). -/
abbrev Window.contains (w : Window) (a : Nat) : Prop := w.base ≤ a ∧ a < w.base + w.len

/-- Each byte of `[base, base + len)` that is not in `exempt` becomes a free byte, the one at `base + j` the draw
`draw + j` (log entry 3). -/
def Memory.scramble (m : Memory) (exempt : Window) (base : Nat) : Nat → Nat → Memory
  | 0, _ => m
  | len + 1, draw =>
    let m' := if exempt.contains base then m else m.write base (Config.freeByte draw)
    Memory.scramble m' exempt (base + 1) len (draw + 1)

/-- The bytes of `[base, base + len)` outside `exempt` hold unspecified values. -/
def scramble (s : State) (exempt : Window) (base len : Nat) : State :=
  { s with mem := s.mem.scramble exempt base len s.draws, draws := s.draws + len }

/-- Command acceptance (10_state.md R37): one atomic change. The configuration registers are not changed. -/
def acceptCommand (s : State) (w : Word) : State :=
  { s with
    latchedCmd := w
    phase := .busy
    done := false
    err := .ok
    seq := .off
    out := ResultRegs.zero }

/-- `raise Error(code, info)` (00_scope.md R10), the block's nearest thing to taking an exception (60_exceptions.md R111):
STATUS becomes BUSY = 0, DONE = 1, ERR = code; ERR_INFO becomes info; RESULT, OUT_FLAGS and OUT_CSIZE keep what acceptance
gave them. -/
def raiseError (s : State) (code : ErrCode) (info : Word) : State :=
  { s with
    phase := .idle
    done := true
    err := code
    seq := .off
    out := { s.out with errInfo := info } }

/-- `complete OK` (00_scope.md R10): STATUS becomes BUSY = 0, DONE = 1, ERR = OK; the results the command wrote stay. -/
def completeOk (s : State) : State :=
  { s with
    phase := .idle
    done := true
    err := .ok
    seq := .off }

end Sys2Proof.Machine
end

