-- ==== Sys2Proof/Machine/Operands.lean ====
section
/-! DEFINITION. The operands of the commands, all read from the configuration registers (30_encoding.md R59), the windows of
20_memory.md R45 and the checks on them. Arithmetic is exact on naturals (00_scope.md R7; 40_bit_array.md R78). -/

namespace Sys2Proof.Machine

/-- `ceil_div(a, b)`, for b > 0 (00_scope.md R7). -/
def ceilDiv (a b : Nat) : Nat := (a + b - 1) / b

/-- `packed_bytes(W, H)` (40_bit_array.md R71). -/
def packedBytes (w h : Nat) : Nat := ceilDiv (w * h) 8

/-- S: the address of the first byte of the source window (10_state.md R22). -/
def srcBase (s : State) : Nat := s.cfg.srcAddr.toNat

/-- L or T: the source length in bytes (10_state.md R23). -/
def srcLen (s : State) : Nat := s.cfg.srcSize.toNat

/-- D: the address of the first byte of the destination window (10_state.md R24). -/
def dstBase (s : State) : Nat := s.cfg.dstAddr.toNat

/-- i: the stream bit position of GET_BIT and SET_BIT (10_state.md R25). -/
def bitIndex (s : State) : Nat := s.cfg.bitIndex.toNat

/-- v: the value SET_BIT writes, BIT_VALUE[0] (10_state.md R26). -/
def bitValue (s : State) : Bool := s.cfg.bitValue.getLsbD 0

/-- n: the exact product WIDTH * HEIGHT (40_bit_array.md R71, R78). -/
def area (s : State) : Nat := s.cfg.width.toNat * s.cfg.height.toNat

/-- P: the packed size of the image in WIDTH and HEIGHT (40_bit_array.md R71). -/
def packedSize (s : State) : Nat := packedBytes s.cfg.width.toNat s.cfg.height.toNat

/-- CAP: the token capacity of COMPRESS, P - 1 (41_rle_encode.md R81). COMPRESS reads it only where P ≥ 1. -/
def capacity (s : State) : Nat := packedSize s - 1

/-- `in_mem(a, len)` (20_memory.md R46), of an empty window too: one that begins past MEM_BYTES fails it (log entry 16). -/
def inMem (s : State) (a len : Nat) : Bool := decide (a + len ≤ memBytes s)

/-- `overlap(a, la, b, lb)` (20_memory.md R48). -/
def overlap (a la b lb : Nat) : Bool :=
  decide (la > 0) && decide (lb > 0) && decide (a < b + lb) && decide (b < a + la)

/-- The source window of each command (20_memory.md R45). A token is read inside the window of its DECOMPRESS. -/
def srcWindow (s : State) : Instr → Window
  | .getBit => { base := srcBase s, len := srcLen s }
  | .setBit => { base := srcBase s, len := srcLen s }
  | .packedBytes => Window.none
  | .compress => { base := srcBase s, len := packedSize s }
  | .decompress => { base := srcBase s, len := srcLen s }
  | .run0 _ => { base := srcBase s, len := srcLen s }
  | .run1 _ => { base := srcBase s, len := srcLen s }

/-- The destination window of each command (20_memory.md R45). SET_BIT's is the one byte it reads and writes. A token
writes inside the window of its DECOMPRESS. -/
def dstWindow (s : State) : Instr → Window
  | .getBit => Window.none
  | .setBit => { base := srcBase s + bitIndex s / 8, len := 1 }
  | .packedBytes => Window.none
  | .compress => { base := dstBase s, len := capacity s }
  | .decompress => { base := dstBase s, len := packedSize s }
  | .run0 _ => { base := dstBase s, len := packedSize s }
  | .run1 _ => { base := dstBase s, len := packedSize s }

/-- The source window of the command in LATCHED_CMD; an undefined command word has none (30_encoding.md R65). -/
def runningSrc (s : State) : Window :=
  match decodeCommand s.latchedCmd with
  | .ok i => srcWindow s i
  | .error _ => Window.none

/-- The destination window of the command in LATCHED_CMD. -/
def runningDst (s : State) : Window :=
  match decodeCommand s.latchedCmd with
  | .ok i => dstWindow s i
  | .error _ => Window.none

/-- The checks of GET_BIT and SET_BIT in the order of 60_exceptions.md R109: the code and ERR_INFO of the first that fails
(40_bit_array.md R73, R74). -/
def bitCheck (s : State) : Option (ErrCode × Word) :=
  if ¬ inMem s (srcBase s) (srcLen s) then some (.bus, 0)
  else if bitIndex s ≥ 8 * srcLen s then some (.range, s.cfg.bitIndex)
  else none

/-- The checks COMPRESS and DECOMPRESS share, in the order of 60_exceptions.md R109: the flags the command requires, the
area, the two windows, their overlap (41_rle_encode.md R79, 42_rle_decode.md R87). Every window is checked in full, COMPRESS's
empty destination window at CAP = 0 too (20_memory.md R46, R47; 92_eei_decisions.md D13), against a corner case of R79 (DEDUCED,
log entry 16). -/
def codecCheck (s : State) (flags : BitVec 2) (src dst : Window) : Option (ErrCode × Word) :=
  if s.cfg.flags ≠ flags then some (.format, s.cfg.flags.setWidth 32)
  else if area s = 0 then some (.dimension, 1)
  else if area s > Config.areaMax then some (.dimension, 2)
  else if ¬ inMem s src.base src.len then some (.bus, 0)
  else if ¬ inMem s dst.base dst.len then some (.bus, 1)
  else if overlap src.base src.len dst.base dst.len then some (.overlap, 0)
  else none

end Sys2Proof.Machine
end

