-- ==== Sys2Proof/Machine/Flags.lean ====
section
/-! DEFINITION. The STATUS word (10_state.md R18), the numbers of the completion codes (60_exceptions.md R96) and the image
flags, the only flags of the block (10_state.md R32). -/

namespace Sys2Proof.Machine

/-- The number of a completion code (60_exceptions.md R96). -/
def ErrCode.number : ErrCode → BitVec 4
  | .ok => 0
  | .opcode => 1
  | .format => 2
  | .dimension => 3
  | .bus => 4
  | .overlap => 5
  | .range => 6
  | .overflow => 7
  | .overrun => 8
  | .underrun => 9

/-- BUSY is 1 exactly when PHASE is BUSY (10_state.md R13). -/
def busyBit (s : State) : Bool := decide (s.phase = .busy)

/-- STATUS: bit 0 BUSY, bit 1 DONE, bits [11:8] ERR, every other bit 0 (10_state.md R18). -/
def statusWord (s : State) : Word :=
  ((BitVec.ofBool (busyBit s)).setWidth 32) ||| ((BitVec.ofBool s.done).setWidth 32 <<< 1) |||
    (s.err.number.setWidth 32 <<< 8)

/-- IS_COMPRESSED = 0, IS_TEXT = 0: the image COMPRESS reads and DECOMPRESS produces (10_state.md R32). -/
def flagsBitmap : BitVec 2 := 0b00

/-- IS_COMPRESSED = 1, IS_TEXT = 0: the image DECOMPRESS reads and COMPRESS produces (10_state.md R32). -/
def flagsCompressed : BitVec 2 := 0b01

end Sys2Proof.Machine
end

