-- ==== Sys2Proof/Machine/BitArray.lean ====
section
/-! DEFINITION. GET_BIT, SET_BIT and PACKED_BYTES (40_bit_array.md R73 to R75). -/

namespace Sys2Proof.Machine

/-- GET_BIT (40_bit_array.md R73): RESULT becomes the stream bit BIT_INDEX of the source window. -/
def execGetBit (s : State) : Host.Outcome State Fault Refusal :=
  match bitCheck s with
  | some (code, info) => .next (raiseError s code info)
  | none =>
    let b := s.mem.getBit (srcBase s) (bitIndex s)
    .next (completeOk { s with out := { s.out with result := (BitVec.ofBool b).setWidth 32 } })

/-- SET_BIT (40_bit_array.md R74): the stream bit BIT_INDEX of the source window becomes BIT_VALUE[0]. -/
def execSetBit (s : State) : Host.Outcome State Fault Refusal :=
  match bitCheck s with
  | some (code, info) => .next (raiseError s code info)
  | none => .next (completeOk { s with mem := s.mem.setBit (srcBase s) (bitIndex s) (bitValue s) })

/-- PACKED_BYTES (40_bit_array.md R75): RESULT becomes P. Zero area is no error. -/
def execPackedBytes (s : State) : Host.Outcome State Fault Refusal :=
  if area s > Config.areaMax then .next (raiseError s .dimension 2)
  else .next (completeOk { s with out := { s.out with result := BitVec.ofNat 32 (packedSize s) } })

end Sys2Proof.Machine
end

