-- ==== Sys2Proof/Machine/Compress.lean ====
section
/-! DEFINITION. COMPRESS (41_rle_encode.md R79 to R86). The loop is written one internal action at a time over the hidden
state of 10_state.md R34; the command is all of them in one step (R38). -/

namespace Sys2Proof.Machine

/-- The checks of COMPRESS (41_rle_encode.md R79, R80): FLAGS = 0b00, source P bytes, destination CAP bytes. -/
def compressCheck (s : State) : Option (ErrCode × Word) :=
  codecCheck s flagsBitmap (srcWindow s .compress) (dstWindow s .compress)

/-- `emit(v, len)` (41_rle_encode.md R79): the memory with the token written, or nothing where it would be token number
CAP + 1 (R81). -/
def emit (s : State) (e : Encoder) : Option Memory :=
  if e.count + 1 > capacity s then none
  else some (s.mem.write (dstBase s + e.count) (tokenByte e.v e.len))

/-- ERR_OVERFLOW (41_rle_encode.md R81, R82): ERR_INFO is the token count, and the destination window holds unspecified
values. -/
def overflowAbort (s : State) (e : Encoder) : State :=
  raiseError (scramble s Window.none (dstBase s) (capacity s)) .overflow (BitVec.ofNat 32 e.count)

/-- The results of a COMPRESS that wrote `count` tokens (41_rle_encode.md R85). -/
def finishCompress (s : State) (count : Nat) : State :=
  completeOk { s with
    out := { s.out with
      result := BitVec.ofNat 32 count
      outFlags := flagsCompressed
      outCsize := BitVec.ofNat 32 count } }

/-- The checks, and the start of the scan: a run is in progress, of stream bit 0 (41_rle_encode.md R79). -/
def startCompress (s : State) : State :=
  match compressCheck s with
  | some (code, info) => raiseError s code info
  | none => { s with seq := .encoding { i := 1, v := s.mem.getBit (srcBase s) 0, len := 1, count := 0 } }

/-- One internal action of the encoder: the loop's body for stream bit i, or, when all n are scanned, the closing token and
the results (41_rle_encode.md R79, R83, R84). -/
def encodeUnit (s : State) (e : Encoder) : State :=
  if e.i < area s then
    let b := s.mem.getBit (srcBase s) e.i
    if b = e.v ∧ e.len < Config.maxRun then
      { s with seq := .encoding { e with i := e.i + 1, len := e.len + 1 } }
    else
      match emit s e with
      | none => overflowAbort s e
      | some m =>
        { s with mem := m, seq := .encoding { i := e.i + 1, v := b, len := 1, count := e.count + 1 } }
  else
    match emit s e with
    | none => overflowAbort s e
    | some m => finishCompress { s with mem := m } (e.count + 1)

/-- Internal actions of the encoder until the command has ended, at most `fuel` of them. -/
def encodeLoop : Nat → State → State
  | 0, s => s
  | fuel + 1, s =>
    match s.seq with
    | .encoding e => encodeLoop fuel (encodeUnit s e)
    | .decoding _ => s
    | .off => s

/-- COMPRESS as one step (41_rle_encode.md R79; 10_state.md R38). The scan takes n actions: n - 1 iterations and the
closing token. -/
def execCompress (s : State) : Host.Outcome State Fault Refusal :=
  .next (encodeLoop (area s) (startCompress s))

/-- A COMPRESS is in progress with this hidden state: the checks have passed and the counters are in range. -/
def encoderReady (s : State) (e : Encoder) : Bool :=
  decide (s.phase = .busy ∧ decodeCommand s.latchedCmd = .ok .compress ∧ compressCheck s = none ∧
    1 ≤ e.i ∧ e.i ≤ area s ∧ 1 ≤ e.len ∧ e.len ≤ Config.maxRun ∧ e.count ≤ capacity s)

end Sys2Proof.Machine
end

