-- ==== Sys2Proof/Machine/Decompress.lean ====
section
/-! DEFINITION. DECOMPRESS and the run tokens it interprets (42_rle_decode.md R87 to R94). The loop is written one token at
a time over the hidden state of 10_state.md R34; the command is all of them in one step (R38). -/

namespace Sys2Proof.Machine

/-- The checks of DECOMPRESS (42_rle_decode.md R87, R88): FLAGS = 0b01, source SRC_SIZE bytes, destination P bytes. -/
def decompressCheck (s : State) : Option (ErrCode × Word) :=
  codecCheck s flagsCompressed (srcWindow s .decompress) (dstWindow s .decompress)

/-- Token k of the stream: the byte at SRC_ADDR + k (42_rle_decode.md R89). -/
def fetchToken (s : State) (k : Nat) : Byte := s.mem.read (srcBase s + k)

/-- ERR_OVERRUN and ERR_UNDERRUN leave the destination window unspecified (42_rle_decode.md R92). -/
def lengthError (s : State) (code : ErrCode) (info : Nat) : State :=
  raiseError (scramble s Window.none (dstBase s) (packedSize s)) code (BitVec.ofNat 32 info)

/-- A run token of value `v` and length `len`, read as token k with pos bits produced: ERR_OVERRUN where the run would pass
the last pixel, else `len` bits of value `v` (42_rle_decode.md R87 to R90). -/
def runToken (v : Bool) (len : Nat) (s : State) (d : Decoder) : State :=
  if d.pos + len > area s then lengthError s .overrun d.k
  else
    { s with
      mem := s.mem.setBits (dstBase s) d.pos len v
      seq := .decoding { k := d.k + 1, pos := d.pos + len } }

/-- After the last token: ERR_UNDERRUN, or the pad bits and the results (42_rle_decode.md R87, R91, R93). -/
def finishDecompress (s : State) (d : Decoder) : State :=
  if d.pos < area s then lengthError s .underrun d.pos
  else
    completeOk { s with
      mem := s.mem.setBits (dstBase s) (area s) (8 * packedSize s - area s) false
      out := { s.out with
        result := BitVec.ofNat 32 (packedSize s)
        outFlags := flagsBitmap
        outCsize := 0 } }

/-- The checks, and the start of the token loop (42_rle_decode.md R87). -/
def startDecompress (s : State) : State :=
  match decompressCheck s with
  | some (code, info) => raiseError s code info
  | none => { s with seq := .decoding { k := 0, pos := 0 } }

/-- One internal action of the decoder: the next token, or, when all T are read, the end (42_rle_decode.md R87). -/
def decodeUnit (s : State) (d : Decoder) : State :=
  if d.k < srcLen s then
    runToken (tokenValue (fetchToken s d.k)) (tokenLength (fetchToken s d.k)) s d
  else finishDecompress s d

/-- Internal actions of the decoder until the command has ended, at most `fuel` of them. -/
def decodeLoop : Nat → State → State
  | 0, s => s
  | fuel + 1, s =>
    match s.seq with
    | .decoding d => decodeLoop fuel (decodeUnit s d)
    | .encoding _ => s
    | .off => s

/-- DECOMPRESS as one step (42_rle_decode.md R87; 10_state.md R38): T tokens, and the end. -/
def execDecompress (s : State) : Host.Outcome State Fault Refusal :=
  .next (decodeLoop (srcLen s + 1) (startDecompress s))

/-- A DECOMPRESS is in progress with this hidden state: the checks have passed and the counters are in range. -/
def decoderReady (s : State) (d : Decoder) : Bool :=
  decide (s.phase = .busy ∧ decodeCommand s.latchedCmd = .ok .decompress ∧ decompressCheck s = none ∧
    d.k ≤ srcLen s ∧ d.pos ≤ area s)

/-- The next token of the DECOMPRESS in progress. Only inside one, with a token left, does a token mean anything
(42_rle_decode.md R88, R89; log entry 9). -/
def execToken (v : Bool) (len : Nat) (s : State) : Host.Outcome State Fault Refusal :=
  match s.seq with
  | .decoding d =>
    if decoderReady s d ∧ d.k < srcLen s then .next (runToken v len s d)
    else .refused .noCommandInProgress
  | .encoding _ => .refused .noCommandInProgress
  | .off => .refused .noCommandInProgress

/-- RUN0 (42_rle_decode.md R88): `len` zero bits. -/
def execRun0 (len : Nat) (s : State) : Host.Outcome State Fault Refusal := execToken false len s

/-- RUN1 (42_rle_decode.md R88): `len` one bits. -/
def execRun1 (len : Nat) (s : State) : Host.Outcome State Fault Refusal := execToken true len s

end Sys2Proof.Machine
end

