-- ==== Sys2Proof/Machine/Dispatch.lean ====
section
/-! DEFINITION. One arm per instruction, each a direct call of its meaning. -/

namespace Sys2Proof.Machine

def exec (i : Instr) (s : State) : Host.Outcome State Fault Refusal :=
  match i with
  | .getBit => Sys2Proof.Machine.execGetBit s
  | .setBit => Sys2Proof.Machine.execSetBit s
  | .packedBytes => Sys2Proof.Machine.execPackedBytes s
  | .compress => Sys2Proof.Machine.execCompress s
  | .decompress => Sys2Proof.Machine.execDecompress s
  | .run0 len => Sys2Proof.Machine.execRun0 len s
  | .run1 len => Sys2Proof.Machine.execRun1 len s

end Sys2Proof.Machine
end

