-- ==== Sys2Proof/Machine/HostPort.lean ====
section
/-! DEFINITION. The host's side: the register window (10_state.md R14, R15, R35, R36), the buffer memory
(20_memory.md R40) with the window hazard (70_reset_and_hazards.md R126), WAIT (30_encoding.md R67), and the reset input
(70_reset_and_hazards.md R121 to R123). -/

namespace Sys2Proof.Machine

/-- The registers of the window, by name (10_state.md R14). -/
inductive Reg where
  | cmd
  | status
  | width
  | height
  | flags
  | srcAddr
  | srcSize
  | dstAddr
  | bitIndex
  | bitValue
  | result
  | outFlags
  | outCsize
  | errInfo
  | reserved38
  | reserved3C
  deriving DecidableEq, Repr

/-- The register at an offset of the window (10_state.md R14). -/
def regAt (offset : Nat) : Option Reg :=
  match offset with
  | 0x00 => some .cmd
  | 0x04 => some .status
  | 0x08 => some .width
  | 0x0C => some .height
  | 0x10 => some .flags
  | 0x14 => some .srcAddr
  | 0x18 => some .srcSize
  | 0x1C => some .dstAddr
  | 0x20 => some .bitIndex
  | 0x24 => some .bitValue
  | 0x28 => some .result
  | 0x2C => some .outFlags
  | 0x30 => some .outCsize
  | 0x34 => some .errInfo
  | 0x38 => some .reserved38
  | 0x3C => some .reserved3C
  | _ => none

/-- The register an access reaches: only an aligned 32-bit access inside the window reaches one (10_state.md R15). -/
def accessedReg (offset bytes : Nat) : Option Reg := if bytes = 4 then regAt offset else none

/-- The 32-bit value a read of a register returns (10_state.md R14, R17 to R31). -/
def readReg (s : State) : Reg → Word
  | .cmd => 0
  | .status => statusWord s
  | .width => s.cfg.width
  | .height => s.cfg.height
  | .flags => s.cfg.flags.setWidth 32
  | .srcAddr => s.cfg.srcAddr
  | .srcSize => s.cfg.srcSize
  | .dstAddr => s.cfg.dstAddr
  | .bitIndex => s.cfg.bitIndex
  | .bitValue => s.cfg.bitValue.setWidth 32
  | .result => s.out.result
  | .outFlags => s.out.outFlags.setWidth 32
  | .outCsize => s.out.outCsize
  | .errInfo => s.out.errInfo
  | .reserved38 => 0
  | .reserved3C => 0

/-- The host has read STATUS: where it read BUSY = 0 every open BUSY interval ends (70_reset_and_hazards.md R126). No state of
the block changes. -/
def observeStatus (s : State) : State :=
  match s.phase with
  | .busy => s
  | .idle => { s with unobserved := [] }

/-- A command word accepted from CMD: its effect on the block (10_state.md R37), and its BUSY interval opens, over the windows
of the registers as they stand (70_reset_and_hazards.md R126). -/
def acceptFromHost (s : State) (w : Word) : State :=
  let t := acceptCommand s w
  { t with unobserved := { src := runningSrc t, dst := runningDst t } :: s.unobserved }

/-- The address lies in a destination window of an open BUSY interval. -/
def inOpenDst (s : State) (a : Nat) : Bool := s.unobserved.any fun w => decide (w.dst.contains a)

/-- The address lies in a window of an open BUSY interval. -/
def inOpenWindow (s : State) (a : Nat) : Bool :=
  s.unobserved.any fun w => decide (w.src.contains a ∨ w.dst.contains a)

/-- A write of `w` while IDLE (10_state.md R15, R36, R37): a read/write register stores the bits it implements, CMD accepts
a command, every other register ignores it. -/
def writeRegIdle (s : State) (w : Word) : Reg → State
  | .cmd => acceptFromHost s w
  | .status => s
  | .width => { s with cfg := { s.cfg with width := w } }
  | .height => { s with cfg := { s.cfg with height := w } }
  | .flags => { s with cfg := { s.cfg with flags := w.setWidth 2 } }
  | .srcAddr => { s with cfg := { s.cfg with srcAddr := w } }
  | .srcSize => { s with cfg := { s.cfg with srcSize := w } }
  | .dstAddr => { s with cfg := { s.cfg with dstAddr := w } }
  | .bitIndex => { s with cfg := { s.cfg with bitIndex := w } }
  | .bitValue => { s with cfg := { s.cfg with bitValue := w.setWidth 1 } }
  | .result => s
  | .outFlags => s
  | .outCsize => s
  | .errInfo => s
  | .reserved38 => s
  | .reserved3C => s

/-- A register write: ignored while BUSY (10_state.md R35). -/
def writeReg (s : State) (r : Reg) (w : Word) : State :=
  match s.phase with
  | .busy => s
  | .idle => writeRegIdle s w r

/-- A host register read. It has no effect on the block (10_state.md R15). -/
def hostRegRead (s : State) (offset bytes : Nat) : Host.Outcome State Fault Refusal :=
  match accessedReg offset bytes with
  | none => .refused (.badRegisterAccess offset bytes)
  | some r =>
    let t := { s with seen := .reg offset (readReg s r) :: s.seen }
    .next (if r = .status then observeStatus t else t)

/-- A host register write. -/
def hostRegWrite (s : State) (offset bytes : Nat) (w : Word) : Host.Outcome State Fault Refusal :=
  match accessedReg offset bytes with
  | none => .refused (.badRegisterAccess offset bytes)
  | some r => .next (writeReg s r w)

/-- One poll of WAIT (30_encoding.md R67): a read of STATUS; while BUSY = 1 the host polls again. -/
def hostWait (s : State) : State :=
  let t := observeStatus { s with seen := .reg 0x04 (statusWord s) :: s.seen }
  match s.phase with
  | .busy => { t with program := .wait :: t.program }
  | .idle => t

/-- A host read of one byte of the buffer memory (20_memory.md R49; log entries 15 and 17). In the BUSY interval of a command
its destination bytes read as any value, and the read does not disturb the command (70_reset_and_hazards.md R126). A byte that
is a source byte too, of the same command or of another open interval, reads so as well (DESIGN CHOICE, log entry 18). -/
def hostMemRead (s : State) (addr : Word) : Host.Outcome State Fault Refusal :=
  if memBytes s ≤ addr.toNat then .fault (.noSuchAddress addr)
  else if inOpenDst s addr.toNat then
    .next { s with seen := .mem addr (Config.freeByte s.draws) :: s.seen, draws := s.draws + 1 }
  else .next { s with seen := .mem addr (s.mem.read addr.toNat) :: s.seen }

/-- A host write of one byte of the buffer memory (20_memory.md R49; log entries 15 and 17). In the BUSY interval of a command
a write into its windows is refused (70_reset_and_hazards.md R126). -/
def hostMemWrite (s : State) (addr : Word) (v : Byte) : Host.Outcome State Fault Refusal :=
  if memBytes s ≤ addr.toNat then .fault (.noSuchAddress addr)
  else if inOpenWindow s addr.toNat then
    .refused (.windowHazard addr)
  else .next { s with mem := s.mem.write addr.toNat v }

/-- One operation of the host. -/
def hostOp (s : State) : HostOp → Host.Outcome State Fault Refusal
  | .regRead offset bytes => hostRegRead s offset bytes
  | .regWrite offset bytes data => hostRegWrite s offset bytes data
  | .wait => .next (hostWait s)
  | .memRead addr => hostMemRead s addr
  | .memWrite addr v => hostMemWrite s addr v
  | .assertReset => .next { s with resetIn := true }

/-- The host's move: its first pending operation, if it has one. -/
def hostStep (s : State) : Host.Outcome State Fault Refusal :=
  match s.program with
  | [] => .next s
  | op :: rest => hostOp { s with program := rest } op

/-- `CMD M`: a write of the command word to CMD (30_encoding.md R67). -/
def HostOp.cmd (w : Word) : HostOp := .regWrite 0x00 4 w

/-- The source bytes a reset leaves alone: all of them, but for SET_BIT, whose window is its own destination
(70_reset_and_hazards.md R123). -/
def resetExempt (s : State) : Window :=
  match decodeCommand s.latchedCmd with
  | .ok .setBit => Window.none
  | _ => runningSrc s

/-- A command abandoned by reset: the bytes of its destination window that lie in the buffer memory hold unspecified
values; every other byte is unchanged (70_reset_and_hazards.md R123; log entry 4). -/
def abandonCommand (s : State) : State :=
  match s.phase with
  | .idle => s
  | .busy =>
    scramble s (resetExempt s) (runningDst s).base (min (runningDst s).len (memBytes s - (runningDst s).base))

/-- Reset (70_reset_and_hazards.md R121, R123, R124): every register, PHASE and LATCHED_CMD take their reset values; the
buffer memory is not reset. The host keeps its program, and no BUSY interval is open (log entry 10). -/
def resetBlock (s : State) : State :=
  { abandonCommand s with
    cfg := ConfigRegs.zero
    out := ResultRegs.zero
    phase := .idle
    done := false
    err := .ok
    latchedCmd := 0
    seq := .off
    unobserved := []
    resetIn := false }

end Sys2Proof.Machine
end

