-- ==== Sys2Proof/Machine/CoreStep.lean ====
section
/-! DEFINITION. The core's move (10_state.md R34, R38): the command in LATCHED_CMD as one step, or one internal action of
it, and which agent moves next (70_reset_and_hazards.md R130). -/

namespace Sys2Proof.Machine

/-- A command word that is not defined completes with ERR_OPCODE, ERR_INFO the word (30_encoding.md R65; 60_exceptions.md
R98). -/
def illegalCommand (s : State) : Host.Outcome State Fault Refusal :=
  .next (raiseError s .opcode s.latchedCmd)

/-- The command in LATCHED_CMD, as one step (10_state.md R38). -/
def runLatched (s : State) : Host.Outcome State Fault Refusal :=
  match decodeCommand s.latchedCmd with
  | .ok i => exec i s
  | .error _ => illegalCommand s

/-- What is left of a COMPRESS in progress, as one step (log entry 7). -/
def resumeCompress (s : State) (e : Encoder) : Host.Outcome State Fault Refusal :=
  if encoderReady s e then .next (encodeLoop (area s - e.i + 1) s) else .refused .noCommandInProgress

/-- What is left of a DECOMPRESS in progress, as one step (log entry 7). -/
def resumeDecompress (s : State) (d : Decoder) : Host.Outcome State Fault Refusal :=
  if decoderReady s d then .next (decodeLoop (srcLen s - d.k + 1) s) else .refused .noCommandInProgress

/-- The core step (10_state.md R38): enabled exactly when PHASE = BUSY; while IDLE the core does nothing
(60_exceptions.md R119). -/
def coreStep (s : State) : Host.Outcome State Fault Refusal :=
  match s.phase with
  | .idle => .next s
  | .busy =>
    match s.seq with
    | .off => runLatched s
    | .encoding e => resumeCompress s e
    | .decoding d => resumeDecompress s d

/-- The first internal action of a command: a codec command enters its loop, every other command is constant work and runs
whole (70_reset_and_hazards.md R130). -/
def beginLatched (s : State) : Host.Outcome State Fault Refusal :=
  match decodeCommand s.latchedCmd with
  | .ok .compress => .next (startCompress s)
  | .ok .decompress => .next (startDecompress s)
  | .ok i => exec i s
  | .error _ => illegalCommand s

/-- One internal action of a COMPRESS in progress. -/
def unitCompress (s : State) (e : Encoder) : Host.Outcome State Fault Refusal :=
  if encoderReady s e then .next (encodeUnit s e) else .refused .noCommandInProgress

/-- One internal action of a DECOMPRESS in progress: the next token is fetched, decoded and executed (42_rle_decode.md R88,
R89); after the last one the command ends. -/
def unitDecompress (s : State) (d : Decoder) : Host.Outcome State Fault Refusal :=
  if d.k < srcLen s then exec (decodeToken (fetchToken s d.k)) s
  else if decoderReady s d then .next (finishDecompress s d)
  else .refused .noCommandInProgress

/-- One internal action of the core (10_state.md R34; log entry 7). -/
def coreUnit (s : State) : Host.Outcome State Fault Refusal :=
  match s.phase with
  | .idle => .next s
  | .busy =>
    match s.seq with
    | .off => beginLatched s
    | .encoding e => unitCompress s e
    | .decoding d => unitDecompress s d

/-- The move of the agent whose turn it is. -/
def move (t : Turn) (s : State) : Host.Outcome State Fault Refusal :=
  match t with
  | .host => hostStep s
  | .core => coreStep s
  | .coreUnit => coreUnit s

/-- Whose turn it is. Where the list is used up the core moves while it is BUSY, so that every accepted command completes
(70_reset_and_hazards.md R130; log entry 6), and the host otherwise. -/
def nextTurn (s : State) : Turn :=
  match s.turns with
  | t :: _ => t
  | [] =>
    match s.phase with
    | .busy => .core
    | .idle => .host

/-- The state once this turn has been taken from the list. -/
def takeTurn (s : State) : State := { s with turns := s.turns.tail }

/-- The state in which a command word is accepted and the core moves next (10_state.md R37, R38; log entry 8). -/
def placeCommand (s : State) (w : Word) : State :=
  { acceptFromHost s w with resetIn := false, turns := .core :: s.turns }

/-- The registers of a DECOMPRESS of a 128 x 1 image of one token, the token at address 0, the bitmap at 1 .. 16. -/
def withTokenImage (s : State) : State :=
  { s with
    cfg := { s.cfg with
      width := 128, height := 1, flags := flagsCompressed, srcAddr := 0, srcSize := 1, dstAddr := 1 } }

/-- The state in which a DECOMPRESS of a 128 x 1 image of one token is in progress, and that token is this byte (log entry
8). -/
def placeDecompress (s : State) (tok : Byte) : State :=
  { acceptFromHost (withTokenImage s) (commandWord 0x5) with
    seq := .decoding { k := 0, pos := 0 }
    mem := s.mem.write 0 tok
    lastAddr := if s.lastAddr.toNat < 16 then 16 else s.lastAddr
    resetIn := false
    turns := .coreUnit :: s.turns }

/-- The state in which the next token of a DECOMPRESS in progress is this byte, and the core reads it next; where none is in
progress with a token left, one is set up (log entry 8). -/
def placeToken (s : State) (tok : Byte) : State :=
  match s.seq with
  | .decoding d =>
    if decoderReady s d ∧ d.k < srcLen s then
      { s with
        mem := s.mem.write (srcBase s + d.k) tok
        resetIn := false
        turns := .coreUnit :: s.turns }
    else placeDecompress s tok
  | .encoding _ => placeDecompress s tok
  | .off => placeDecompress s tok

end Sys2Proof.Machine
end

