-- ==== Sys2Proof/Machine/Step.lean ====
section
/-! DEFINITION. One step of the machine, and how an instruction is put where the next step runs it. -/

namespace Sys2Proof.Machine

/-- One step: reset where the reset input is asserted, whatever else is pending (70_reset_and_hazards.md R122); else the
move of the agent whose turn it is (10_state.md R13). -/
def step (s : State) : Host.Outcome State Fault Refusal :=
  if s.resetIn then .next (resetBlock s) else move (nextTurn s) (takeTurn s)

/-- `s` with the instruction of these bits where the next step runs it. The block fetches no instructions (10_state.md
R16): a command word is run by being accepted from CMD (R37), a run token by being the next token of a DECOMPRESS in
progress (42_rle_decode.md R88). Log entry 8. -/
def State.withFetchWord (s : State) (nbits w : Nat) : State :=
  match ofTableBits nbits w with
  | .cmdw c => placeCommand s c
  | .token b => placeToken s b

end Sys2Proof.Machine
end

