-- ==== Sys2Proof/Safety.lean ====
section
/-! DEFINITION. The terms that claims about the block use: the invariant of a machine the spec describes, what a codec
command accepts, and the run segmentation and expansion of 41_rle_encode.md R83 and 42_rle_decode.md R88 as functions on
lists, apart from the machine. -/

namespace Sys2Proof.Machine

/-- The hidden state, where there is any, is that of a command in progress (10_state.md R34; 70_reset_and_hazards.md
R121). -/
def SequencerReady (s : State) : Prop :=
  match s.seq with
  | .off => True
  | .encoding e => encoderReady s e = true
  | .decoding d => decoderReady s d = true

/-- The invariant of the machine. -/
structure State.Inv (s : State) : Prop where
  /-- The memory is in its canonical form. -/
  memWf : s.mem.wf
  /-- Only addresses 0 .. MEM_BYTES - 1 exist (20_memory.md R40). -/
  memBound : ∀ c ∈ s.mem, c.1 < memBytes s
  /-- While BUSY: DONE = 0, ERR = OK and every result register is 0 (10_state.md R35). -/
  busyClear : s.phase = .busy → s.done = false ∧ s.err = .ok ∧ s.out = ResultRegs.zero
  /-- BUSY = 0 and DONE = 0: reset, or no command completed since (10_state.md R18). -/
  freshClear : s.done = false → s.err = .ok ∧ s.out = ResultRegs.zero
  /-- A command that ended in error left the results at 0 (00_scope.md R10; 10_state.md R27). -/
  errorClear : s.err ≠ .ok → s.out.result = 0 ∧ s.out.outFlags = 0 ∧ s.out.outCsize = 0
  /-- ERR_INFO is 0 unless a command ended in error (10_state.md R30). -/
  okInfo : s.err = .ok → s.out.errInfo = 0
  /-- OUT_FLAGS is never text, so never 0b11 (10_state.md R28, R32). -/
  neverText : s.out.outFlags.getLsbD 1 = false
  /-- There is hidden state only inside a command (70_reset_and_hazards.md R121). -/
  idleSeq : s.phase = .idle → s.seq = .off
  seqReady : SequencerReady s
  /-- The BUSY interval of the running command is open (70_reset_and_hazards.md R126). -/
  busyOpen : s.phase = .busy → { src := runningSrc s, dst := runningDst s } ∈ s.unobserved

/-- What a codec command accepts: every check of 60_exceptions.md R109 passes, with these windows. -/
structure CodecAccepts (s : State) (flags : BitVec 2) (src dst : Window) : Prop where
  flags : s.cfg.flags = flags
  areaPos : 0 < s.cfg.width.toNat * s.cfg.height.toNat
  areaMax : s.cfg.width.toNat * s.cfg.height.toNat ≤ 2 ^ 32 - 1
  srcIn : src.base + src.len ≤ s.lastAddr.toNat + 1
  dstIn : dst.base + dst.len ≤ s.lastAddr.toNat + 1
  disjoint : ¬ (src.len > 0 ∧ dst.len > 0 ∧ src.base < dst.base + dst.len ∧ dst.base < src.base + src.len)

/-- P, written out (40_bit_array.md R71). -/
def packedLen (s : State) : Nat := (s.cfg.width.toNat * s.cfg.height.toNat + 7) / 8

/-- COMPRESS passes its checks (41_rle_encode.md R79; windows: 20_memory.md R45). -/
abbrev CompressAccepts (s : State) : Prop :=
  CodecAccepts s 0b00 { base := s.cfg.srcAddr.toNat, len := packedLen s }
    { base := s.cfg.dstAddr.toNat, len := packedLen s - 1 }

/-- DECOMPRESS passes its checks (42_rle_decode.md R87; windows: 20_memory.md R45). -/
abbrev DecompressAccepts (s : State) : Prop :=
  CodecAccepts s 0b01 { base := s.cfg.srcAddr.toNat, len := s.cfg.srcSize.toNat }
    { base := s.cfg.dstAddr.toNat, len := packedLen s }

/-- GET_BIT and SET_BIT pass their checks (40_bit_array.md R73, R74). -/
structure BitAccepts (s : State) : Prop where
  srcIn : s.cfg.srcAddr.toNat + s.cfg.srcSize.toNat ≤ s.lastAddr.toNat + 1
  inRange : s.cfg.bitIndex.toNat < 8 * s.cfg.srcSize.toNat

/-- `k` steps lead from `s` to `u`, each of them answering a next state. -/
def StepsTo : Nat → State → State → Prop
  | 0, s, u => s = u
  | k + 1, s, u => ∃ v, step s = .next v ∧ StepsTo k v u

/-- Every byte outside the window reads as before. -/
def SameOutside (w : Window) (m m' : Memory) : Prop := ∀ a, ¬ w.contains a → m'.read a = m.read a

/-- Each byte of the window is its own free draw (41_rle_encode.md R82; log entry 3). -/
def FreeInside (w : Window) (draw : Nat) (m : Memory) : Prop :=
  ∀ j < w.len, m.read (w.base + j) = Config.freeByte (draw + j)

/-- The stream bits 0 .. count - 1 of the packed stream at `base` (40_bit_array.md R69). -/
def streamBits (m : Memory) (base count : Nat) : List Bool := (List.range count).map (m.getBit base)

/-- The runs of the bits still to scan, with a run of value `v` and length `len` in progress: a run ends where the next
bit differs or its length has reached 128 (41_rle_encode.md R83); the last one is closed at the end (R84). -/
def runsFrom (v : Bool) (len : Nat) : List Bool → List (Bool × Nat)
  | [] => [(v, len)]
  | b :: bits =>
    if b = v ∧ len < 128 then runsFrom v (len + 1) bits else (v, len) :: runsFrom b 1 bits

/-- The runs of a bitmap (41_rle_encode.md R83, R84, R86). -/
def runsOf : List Bool → List (Bool × Nat)
  | [] => []
  | b :: bits => runsFrom b 1 bits

/-- The tokens of a bitmap, with no capacity limit (41_rle_encode.md R86). -/
def tokensOf (bits : List Bool) : List Byte := (runsOf bits).map fun r => tokenByte r.1 r.2

/-- The bits of one token (30_encoding.md R62, 42_rle_decode.md R88). -/
def tokenBits (tok : Byte) : List Bool :=
  List.replicate ((tok &&& 0x7F#8).toNat + 1) (tok.getLsbD 7)

/-- The bits of a token stream, in order (42_rle_decode.md R89). -/
def expand (toks : List Byte) : List Bool := toks.flatMap tokenBits

/-- The `count` bytes from `base` on. -/
def bytesAt (m : Memory) (base count : Nat) : List Byte := (List.range count).map fun k => m.read (base + k)

/-- The pixel bits COMPRESS scans. -/
def pixelBits (s : State) : List Bool :=
  streamBits s.mem s.cfg.srcAddr.toNat (s.cfg.width.toNat * s.cfg.height.toNat)

/-- The token stream DECOMPRESS reads. -/
def sourceTokens (s : State) : List Byte := bytesAt s.mem s.cfg.srcAddr.toNat s.cfg.srcSize.toNat

end Sys2Proof.Machine
end

