-- ==== Sys2Proof/Certificates/Slice0/Obligations.lean ====
section
/-! DEFINITION. The statements for the provers. Each docstring names the rule of spec/ it formalises, or says that it rests
on a choice of the model. -/

open Sys2Proof Sys2Proof.Machine

/-! ### Encoding -/

/-- 30_encoding.md R60 to R63: the encoding of every well-formed instruction decodes to it. -/
def Obligations.DecodeOfEncodeGivesTheInstruction : Prop :=
  ∀ i : Instr, i.wellFormed = true → decode (encode i) = .ok i

/-- 30_encoding.md R60, R61, R64: what decodes is well-formed and encodes back to the same word or byte, so that no two
words stand for one instruction. -/
def Obligations.EncodeOfDecodeGivesTheWord : Prop :=
  ∀ (e : Encoded) (i : Instr), decode e = .ok i → i.wellFormed = true ∧ encode i = e

/-- 30_encoding.md R60, R63: words written out from the spec's tables. -/
def Obligations.WrittenWordsDecode : Prop :=
  decode (.cmdw 0x00000001) = .ok .getBit ∧ decode (.cmdw 0x00000002) = .ok .setBit ∧
  decode (.cmdw 0x00000003) = .ok .packedBytes ∧ decode (.cmdw 0x00000004) = .ok .compress ∧
  decode (.cmdw 0x00000005) = .ok .decompress ∧
  decode (.token 0x00) = .ok (.run0 1) ∧ decode (.token 0x7F) = .ok (.run0 128) ∧
  decode (.token 0x80) = .ok (.run1 1) ∧ decode (.token 0xFF) = .ok (.run1 128) ∧
  decode (.token 0x03) = .ok (.run0 4)

/-- 30_encoding.md R60: each of the five words is its command, and no other word is one. -/
def Obligations.OnlyTheFiveWordsAreCommands : Prop :=
  ∀ w : Word,
    (decodeCommand w = .ok .getBit ↔ w = 0x00000001) ∧
    (decodeCommand w = .ok .setBit ↔ w = 0x00000002) ∧
    (decodeCommand w = .ok .packedBytes ↔ w = 0x00000003) ∧
    (decodeCommand w = .ok .compress ↔ w = 0x00000004) ∧
    (decodeCommand w = .ok .decompress ↔ w = 0x00000005) ∧
    ((∃ i, decodeCommand w = .ok i) ↔ w = 1 ∨ w = 2 ∨ w = 3 ∨ w = 4 ∨ w = 5)

/-- 30_encoding.md R61, R62: V is bit 7, the length is bits 6:0 plus one, in 1 .. 128, and the token of a run of value v
and length len is `(v << 7) | (len - 1)`. -/
def Obligations.TokenIsValueBitAndBiasedLength : Prop :=
  (∀ tok : Byte,
    tokenValue tok = decide (128 ≤ tok.toNat) ∧ tokenLength tok = tok.toNat % 128 + 1) ∧
  (∀ (v : Bool) (len : Nat), 1 ≤ len → len ≤ 128 →
    (tokenByte v len).toNat = (if v then 128 else 0) + (len - 1))

/-! ### The register window -/

/-- 10_state.md R36: what a write to each read/write register stores while IDLE; no other state changes. -/
def Obligations.IdleWritesStoreTheImplementedBits : Prop :=
  ∀ (s : State) (w : Word), s.phase = .idle →
    hostOp s (.regWrite 0x08 4 w) = .next { s with cfg := { s.cfg with width := w } } ∧
    hostOp s (.regWrite 0x0C 4 w) = .next { s with cfg := { s.cfg with height := w } } ∧
    hostOp s (.regWrite 0x10 4 w) = .next { s with cfg := { s.cfg with flags := (w &&& 0x3).setWidth 2 } } ∧
    hostOp s (.regWrite 0x14 4 w) = .next { s with cfg := { s.cfg with srcAddr := w } } ∧
    hostOp s (.regWrite 0x18 4 w) = .next { s with cfg := { s.cfg with srcSize := w } } ∧
    hostOp s (.regWrite 0x1C 4 w) = .next { s with cfg := { s.cfg with dstAddr := w } } ∧
    hostOp s (.regWrite 0x20 4 w) = .next { s with cfg := { s.cfg with bitIndex := w } } ∧
    hostOp s (.regWrite 0x24 4 w) = .next { s with cfg := { s.cfg with bitValue := (w &&& 0x1).setWidth 1 } }

/-- 10_state.md R37: the whole effect of accepting a command on the block, whatever the word; STATUS then reads 0x00000001.
(The host's open BUSY intervals are `BusyIntervalIsForbidden`'s.) -/
def Obligations.AcceptanceLatchesAndClears : Prop :=
  ∀ (s : State) (w : Word), s.phase = .idle →
    ∃ t, hostOp s (.regWrite 0x00 4 w) = .next t ∧
      t = { s with
        latchedCmd := w, phase := .busy, done := false, err := .ok, seq := .off
        out := { result := 0, outFlags := 0, outCsize := 0, errInfo := 0 }
        unobserved := t.unobserved } ∧
      statusWord t = 0x00000001

/-- 10_state.md R35: while BUSY every register write is ignored, and the reads of a machine that meets the invariant
return STATUS = 1 and results 0. -/
def Obligations.BusyWritesAreIgnored : Prop :=
  ∀ (s : State), s.phase = .busy →
    (∀ (offset : Nat) (w : Word), offset % 4 = 0 → offset < 64 →
      hostOp s (.regWrite offset 4 w) = .next s) ∧
    (s.Inv → readReg s .status = 0x00000001 ∧ readReg s .result = 0 ∧ readReg s .outFlags = 0 ∧
      readReg s .outCsize = 0 ∧ readReg s .errInfo = 0)

/-- 10_state.md R14, R15: what an aligned 32-bit read returns at every offset, with no effect on the block or the memory; CMD
and the reserved offsets read 0. (The host's open BUSY intervals are `BusyIntervalIsForbidden`'s.) -/
def Obligations.RegisterReadsFollowTheMap : Prop :=
  ∀ (s : State) (offset : Nat) (v : Word),
    (offset, v) ∈ [(0x00, 0), (0x04, statusWord s), (0x08, s.cfg.width), (0x0C, s.cfg.height),
      (0x10, s.cfg.flags.setWidth 32), (0x14, s.cfg.srcAddr), (0x18, s.cfg.srcSize), (0x1C, s.cfg.dstAddr),
      (0x20, s.cfg.bitIndex), (0x24, s.cfg.bitValue.setWidth 32), (0x28, s.out.result),
      (0x2C, s.out.outFlags.setWidth 32), (0x30, s.out.outCsize), (0x34, s.out.errInfo), (0x38, 0), (0x3C, 0)] →
    ∃ t, hostOp s (.regRead offset 4) = .next t ∧
      t = { s with seen := .reg offset v :: s.seen, unobserved := t.unobserved }

/-- 10_state.md R15, R31: a write to a read-only register or a reserved offset is ignored. -/
def Obligations.ReadOnlyWritesAreIgnored : Prop :=
  ∀ (s : State) (offset : Nat) (w : Word),
    offset ∈ [0x04, 0x28, 0x2C, 0x30, 0x34, 0x38, 0x3C] → hostOp s (.regWrite offset 4 w) = .next s

/-- 10_state.md R15, 20_memory.md R44: an access that is not an aligned 32-bit access inside the window is refused, and
every one that is gets an answer. -/
def Obligations.OnlyAlignedWordAccessesHaveMeaning : Prop :=
  ∀ (s : State) (offset bytes : Nat) (w : Word),
    ((bytes ≠ 4 ∨ offset % 4 ≠ 0 ∨ 64 ≤ offset) →
      hostOp s (.regRead offset bytes) = .refused (.badRegisterAccess offset bytes) ∧
      hostOp s (.regWrite offset bytes w) = .refused (.badRegisterAccess offset bytes)) ∧
    (bytes = 4 → offset % 4 = 0 → offset < 64 →
      (∃ t, hostOp s (.regRead offset bytes) = .next t) ∧ (∃ t, hostOp s (.regWrite offset bytes w) = .next t))

/-- 10_state.md R18, 60_exceptions.md R96, R107: the layout of STATUS; ERR is one of 0 .. 9; BUSY and DONE are never both
1 in a machine that meets the invariant. -/
def Obligations.StatusLayout : Prop :=
  ∀ s : State,
    (statusWord s).toNat =
      (if s.phase = .busy then 1 else 0) + (if s.done then 2 else 0) + 256 * s.err.number.toNat ∧
    s.err.number.toNat ≤ 9 ∧
    (s.Inv → ¬ ((statusWord s).getLsbD 0 = true ∧ (statusWord s).getLsbD 1 = true))

/-! ### How a command ends -/

/-- 00_scope.md R10, 60_exceptions.md R111: the two endings of a command, whole: `raise Error` saves ERR_INFO, changes
STATUS and PHASE and nothing else; `complete OK` keeps the results. -/
def Obligations.CommandEndings : Prop :=
  ∀ (s : State) (code : ErrCode) (info : Word),
    raiseError s code info =
      { s with phase := .idle, done := true, err := code, seq := .off, out := { s.out with errInfo := info } } ∧
    completeOk s = { s with phase := .idle, done := true, err := .ok, seq := .off } ∧
    statusWord (raiseError s code info) = 0x2 ||| (code.number.setWidth 32 <<< 8) ∧
    statusWord (completeOk s) = 0x00000002

/-- 60_exceptions.md R98, 30_encoding.md R65: the core step of an accepted word that is no command completes with
ERR_OPCODE and the word in ERR_INFO, and changes nothing else. -/
def Obligations.IllegalWordEndsInErrOpcode : Prop :=
  ∀ s : State, s.phase = .busy → s.seq = .off →
    s.latchedCmd ≠ 1 → s.latchedCmd ≠ 2 → s.latchedCmd ≠ 3 → s.latchedCmd ≠ 4 → s.latchedCmd ≠ 5 →
    coreStep s = .next (raiseError s .opcode s.latchedCmd)

/-! ### The buffer memory and the bit primitives -/

/-- 20_memory.md R49: a read returns the last value written to that byte, a write changes only its byte, and the canonical
form is kept. -/
def Obligations.MemoryReadAfterWrite : Prop :=
  ∀ (m : Memory) (a b : Nat) (v : Byte), m.wf →
    (m.write a v).wf ∧ (m.write a v).read b = if b = a then v else m.read b

/-- 40_bit_array.md R76: read after write, for the primitives, and for SET_BIT followed by GET_BIT with the same
registers. -/
def Obligations.GetBitAfterSetBit : Prop :=
  (∀ (m : Memory) (base i : Nat) (v : Bool), m.wf → (m.setBit base i v).getBit base i = v) ∧
  (∀ s : State, s.mem.wf → BitAccepts s →
    ∃ t u, exec .setBit s = .next t ∧ exec .getBit (acceptCommand t 0x00000001) = .next u ∧
      u.err = .ok ∧ u.out.result = s.cfg.bitValue.setWidth 32)

/-- 40_bit_array.md R77: `set_bit` changes no other stream bit and no other byte. -/
def Obligations.SetBitIsLocal : Prop :=
  ∀ (m : Memory) (base i : Nat) (v : Bool), m.wf →
    (∀ j, j ≠ i → (m.setBit base i v).getBit base j = m.getBit base j) ∧
    (∀ a, a ≠ base + i / 8 → (m.setBit base i v).read a = m.read a)

/-! ### GET_BIT, SET_BIT, PACKED_BYTES -/

/-- 40_bit_array.md R73, whole: GET_BIT on a window inside the memory and an index inside the window completes; RESULT is
bit `7 - (i mod 8)` of byte `i div 8`, and nothing changes but STATUS, PHASE and RESULT; a window outside the memory is
ERR_BUS, then an index outside the window ERR_RANGE, with nothing else done. -/
def Obligations.GetBitCompletes : Prop :=
  ∀ s : State,
    (BitAccepts s →
      exec .getBit s = .next { s with
        phase := .idle, done := true, err := .ok, seq := .off,
        out := { s.out with
          result := if (s.mem.read (s.cfg.srcAddr.toNat + s.cfg.bitIndex.toNat / 8)).getLsbD
            (7 - s.cfg.bitIndex.toNat % 8) then 1 else 0 } }) ∧
    (s.lastAddr.toNat + 1 < s.cfg.srcAddr.toNat + s.cfg.srcSize.toNat →
      exec .getBit s = .next (raiseError s .bus 0)) ∧
    (s.cfg.srcAddr.toNat + s.cfg.srcSize.toNat ≤ s.lastAddr.toNat + 1 →
      8 * s.cfg.srcSize.toNat ≤ s.cfg.bitIndex.toNat →
      exec .getBit s = .next (raiseError s .range s.cfg.bitIndex))

/-- 40_bit_array.md R74, whole, and R70: SET_BIT completes under the same conditions as GET_BIT; its one byte is the old one
with the mask set (OR) or cleared (AND with the complement), every other byte reads as before, and nothing else changes but
STATUS and PHASE; its errors are GET_BIT's. -/
def Obligations.SetBitCompletes : Prop :=
  ∀ s : State, s.mem.wf →
    (BitAccepts s →
      ∃ t, exec .setBit s = .next t ∧
        t = { s with phase := .idle, done := true, err := .ok, seq := .off, mem := t.mem } ∧
        t.mem.read (s.cfg.srcAddr.toNat + s.cfg.bitIndex.toNat / 8) =
          (let old := s.mem.read (s.cfg.srcAddr.toNat + s.cfg.bitIndex.toNat / 8)
           let mask := 1#8 <<< (7 - s.cfg.bitIndex.toNat % 8)
           if s.cfg.bitValue = 1#1 then old ||| mask else old &&& ~~~mask) ∧
        ∀ a, a ≠ s.cfg.srcAddr.toNat + s.cfg.bitIndex.toNat / 8 → t.mem.read a = s.mem.read a) ∧
    (s.lastAddr.toNat + 1 < s.cfg.srcAddr.toNat + s.cfg.srcSize.toNat →
      exec .setBit s = .next (raiseError s .bus 0)) ∧
    (s.cfg.srcAddr.toNat + s.cfg.srcSize.toNat ≤ s.lastAddr.toNat + 1 →
      8 * s.cfg.srcSize.toNat ≤ s.cfg.bitIndex.toNat →
      exec .setBit s = .next (raiseError s .range s.cfg.bitIndex))

/-- 40_bit_array.md R75, R71, whole: PACKED_BYTES writes `ceil(W * H / 8)`, which fits, also at zero area, and nothing else
but STATUS and PHASE; above 2^32 - 1 it ends in ERR_DIMENSION with ERR_INFO = 2. -/
def Obligations.PackedBytesCompletes : Prop :=
  ∀ s : State,
    (s.cfg.width.toNat * s.cfg.height.toNat ≤ 2 ^ 32 - 1 →
      ∃ r : Word, r.toNat = (s.cfg.width.toNat * s.cfg.height.toNat + 7) / 8 ∧
        exec .packedBytes s = .next { s with
          phase := .idle, done := true, err := .ok, seq := .off, out := { s.out with result := r } }) ∧
    (2 ^ 32 - 1 < s.cfg.width.toNat * s.cfg.height.toNat →
      exec .packedBytes s = .next (raiseError s .dimension 2))

/-! ### The checks -/

/-- 20_memory.md R45: the windows of each command. -/
def Obligations.CommandWindows : Prop :=
  ∀ s : State,
    srcWindow s .getBit = { base := s.cfg.srcAddr.toNat, len := s.cfg.srcSize.toNat } ∧
    (∀ a, ¬ (dstWindow s .getBit).contains a) ∧
    srcWindow s .setBit = { base := s.cfg.srcAddr.toNat, len := s.cfg.srcSize.toNat } ∧
    dstWindow s .setBit = { base := s.cfg.srcAddr.toNat + s.cfg.bitIndex.toNat / 8, len := 1 } ∧
    (∀ a, ¬ (srcWindow s .packedBytes).contains a ∧ ¬ (dstWindow s .packedBytes).contains a) ∧
    srcWindow s .compress = { base := s.cfg.srcAddr.toNat, len := packedLen s } ∧
    dstWindow s .compress = { base := s.cfg.dstAddr.toNat, len := packedLen s - 1 } ∧
    srcWindow s .decompress = { base := s.cfg.srcAddr.toNat, len := s.cfg.srcSize.toNat } ∧
    dstWindow s .decompress = { base := s.cfg.dstAddr.toNat, len := packedLen s }

/-- 60_exceptions.md R101, 20_memory.md R46, R47: ERR_BUS of the four commands with windows, source first (ERR_INFO 0), then
destination (ERR_INFO 1), where the earlier checks pass; no memory access. (For an empty destination window past MEM_BYTES, COMPRESS
with CAP = 0, a corner case of 41_rle_encode.md R79 says otherwise; the model follows R46, R47 and decision D13, log entry
16.) -/
def Obligations.WindowOutsideMemoryIsErrBus : Prop :=
  ∀ (s : State) (i : Instr),
    (i = .getBit ∨ i = .setBit ∨ (i = .compress ∧ s.cfg.flags = 0b00) ∨ (i = .decompress ∧ s.cfg.flags = 0b01)) →
    ((i = .compress ∨ i = .decompress) →
      0 < s.cfg.width.toNat * s.cfg.height.toNat ∧ s.cfg.width.toNat * s.cfg.height.toNat ≤ 2 ^ 32 - 1) →
    ((srcWindow s i).base + (srcWindow s i).len > s.lastAddr.toNat + 1 →
      exec i s = .next (raiseError s .bus 0)) ∧
    ((i = .compress ∨ i = .decompress) →
      (srcWindow s i).base + (srcWindow s i).len ≤ s.lastAddr.toNat + 1 →
      (dstWindow s i).base + (dstWindow s i).len > s.lastAddr.toNat + 1 →
      exec i s = .next (raiseError s .bus 1))

/-- 60_exceptions.md R99, 41_rle_encode.md R80, 42_rle_decode.md R88: the wrong FLAGS end a codec command before anything
else, with ERR_INFO = FLAGS and no memory access. -/
def Obligations.WrongFlagsAreErrFormat : Prop :=
  ∀ s : State,
    (s.cfg.flags ≠ 0b00 → exec .compress s = .next (raiseError s .format (s.cfg.flags.setWidth 32))) ∧
    (s.cfg.flags ≠ 0b01 → exec .decompress s = .next (raiseError s .format (s.cfg.flags.setWidth 32)))

/-- 60_exceptions.md R100: zero area is ERR_INFO 1, for the codec commands only; an area above 2^32 - 1 is ERR_INFO 2, for
PACKED_BYTES too, which takes a zero area; GET_BIT and SET_BIT never raise ERR_DIMENSION. The codec commands check it where
their FLAGS are right (R109). -/
def Obligations.BadAreaIsErrDimension : Prop :=
  (∀ (s : State) (i : Instr),
    ((i = .compress ∧ s.cfg.flags = 0b00) ∨ (i = .decompress ∧ s.cfg.flags = 0b01)) →
    (s.cfg.width.toNat * s.cfg.height.toNat = 0 → exec i s = .next (raiseError s .dimension 1)) ∧
    (2 ^ 32 - 1 < s.cfg.width.toNat * s.cfg.height.toNat → exec i s = .next (raiseError s .dimension 2))) ∧
  (∀ s : State,
    (2 ^ 32 - 1 < s.cfg.width.toNat * s.cfg.height.toNat →
      exec .packedBytes s = .next (raiseError s .dimension 2)) ∧
    (s.cfg.width.toNat * s.cfg.height.toNat = 0 → ∃ t, exec .packedBytes s = .next t ∧ t.err = .ok)) ∧
  (∀ s t : State, (exec .getBit s = .next t ∨ exec .setBit s = .next t) → t.err ≠ .dimension)

/-- 60_exceptions.md R102, 20_memory.md R48: overlapping windows that lie in memory end a codec command in ERR_OVERLAP with
no memory access. -/
def Obligations.OverlappingWindowsAreErrOverlap : Prop :=
  ∀ (s : State) (i : Instr),
    ((i = .compress ∧ s.cfg.flags = 0b00) ∨ (i = .decompress ∧ s.cfg.flags = 0b01)) →
    0 < s.cfg.width.toNat * s.cfg.height.toNat → s.cfg.width.toNat * s.cfg.height.toNat ≤ 2 ^ 32 - 1 →
    (srcWindow s i).base + (srcWindow s i).len ≤ s.lastAddr.toNat + 1 →
    (dstWindow s i).base + (dstWindow s i).len ≤ s.lastAddr.toNat + 1 →
    (∃ a, (srcWindow s i).contains a ∧ (dstWindow s i).contains a) →
    exec i s = .next (raiseError s .overlap 0)

/-! ### COMPRESS -/

/-- 41_rle_encode.md R79, R83 to R85: where the token count T is at most P - 1, COMPRESS completes OK; the tokens of the
bitmap's runs are at DST_ADDR, every other byte reads as before; RESULT and OUT_CSIZE are T, OUT_FLAGS is 0b01, and nothing
else changes but STATUS and PHASE. -/
def Obligations.CompressWritesTheRunTokens : Prop :=
  ∀ s : State, s.mem.wf → CompressAccepts s → (tokensOf (pixelBits s)).length ≤ packedLen s - 1 →
    ∃ t, exec .compress s = .next t ∧
      t = { s with
        phase := .idle, done := true, err := .ok, seq := .off, mem := t.mem
        out := { s.out with
          result := BitVec.ofNat 32 (tokensOf (pixelBits s)).length
          outFlags := 0b01
          outCsize := BitVec.ofNat 32 (tokensOf (pixelBits s)).length } } ∧
      bytesAt t.mem s.cfg.dstAddr.toNat (tokensOf (pixelBits s)).length = tokensOf (pixelBits s) ∧
      SameOutside { base := s.cfg.dstAddr.toNat, len := (tokensOf (pixelBits s)).length } s.mem t.mem

/-- 41_rle_encode.md R81, R82, 60_exceptions.md R104: where T is at least P, COMPRESS ends in ERR_OVERFLOW with ERR_INFO =
CAP; its destination window holds free draws, every other byte reads as before. (The threshold T = P is the spec's decision
D16.) -/
def Obligations.CompressOverflowAborts : Prop :=
  ∀ s : State, s.mem.wf → CompressAccepts s → packedLen s ≤ (tokensOf (pixelBits s)).length →
    ∃ t, exec .compress s = .next t ∧
      t = { raiseError s .overflow (BitVec.ofNat 32 (packedLen s - 1)) with
        mem := t.mem, draws := s.draws + (packedLen s - 1) } ∧
      FreeInside { base := s.cfg.dstAddr.toNat, len := packedLen s - 1 } s.draws t.mem ∧
      SameOutside { base := s.cfg.dstAddr.toNat, len := packedLen s - 1 } s.mem t.mem

/-- 41_rle_encode.md R81: an accepted COMPRESS completes OK exactly when its token count T is at most P - 1, and ends in
ERR_OVERFLOW with ERR_INFO = P - 1 exactly when T is at least P. (At T = P the spec's decision D16.) -/
def Obligations.CompressCompletesExactlyBelowP : Prop :=
  ∀ s : State, CompressAccepts s →
    ∃ t, exec .compress s = .next t ∧
      (t.err = .ok ↔ (tokensOf (pixelBits s)).length ≤ packedLen s - 1) ∧
      (t.err = .overflow ↔ packedLen s ≤ (tokensOf (pixelBits s)).length) ∧
      (t.err = .overflow → t.out.errInfo.toNat = packedLen s - 1)

/-- 41_rle_encode.md R86 items 1 to 4, of the segmentation: every length is in 1 .. 128, the runs expand to the bits, two
adjacent runs of one value only after a run of 128, and T is between ceil(n / 128) and n. -/
def Obligations.RunSegmentationLaws : Prop :=
  ∀ bits : List Bool, bits ≠ [] →
    (∀ r ∈ runsOf bits, 1 ≤ r.2 ∧ r.2 ≤ 128) ∧
    expand (tokensOf bits) = bits ∧
    (∀ (pre post : List (Bool × Nat)) (a b : Bool × Nat),
      runsOf bits = pre ++ a :: b :: post → a.1 = b.1 → a.2 = 128) ∧
    (bits.length + 127) / 128 ≤ (tokensOf bits).length ∧ (tokensOf bits).length ≤ bits.length

/-- 41_rle_encode.md R79, R86 item 5: an image of at most 8 pixels whose FLAGS, area and source window pass ends in
ERR_OVERFLOW with ERR_INFO = 0, its empty destination window leaving the memory as it was (at T = P the spec's decision D16,
log entry 14), with every DST_ADDR up to MEM_BYTES. Past it that window fails the bus check, against a corner case of R79
(log entry 16). -/
def Obligations.EightPixelsOverflow : Prop :=
  ∀ s : State, s.cfg.flags = 0b00 → 0 < s.cfg.width.toNat * s.cfg.height.toNat →
    s.cfg.width.toNat * s.cfg.height.toNat ≤ 8 →
    s.cfg.srcAddr.toNat + packedLen s ≤ s.lastAddr.toNat + 1 →
    (s.cfg.dstAddr.toNat ≤ s.lastAddr.toNat + 1 → exec .compress s = .next (raiseError s .overflow 0)) ∧
    (s.lastAddr.toNat + 1 < s.cfg.dstAddr.toNat → exec .compress s = .next (raiseError s .bus 1))

/-- 41_rle_encode.md R86 item 5: a bitmap with no run longer than one bit ends in ERR_OVERFLOW with ERR_INFO = P - 1. (At
n = 1, where T = P = 1, this rests on the spec's decision D16, log entry 14.) -/
def Obligations.AlternatingBitmapOverflows : Prop :=
  ∀ s : State, CompressAccepts s →
    (∀ i, i + 1 < s.cfg.width.toNat * s.cfg.height.toNat →
      s.mem.getBit s.cfg.srcAddr.toNat i ≠ s.mem.getBit s.cfg.srcAddr.toNat (i + 1)) →
    ∃ t, exec .compress s = .next t ∧ t.err = .overflow ∧ t.out.errInfo.toNat = packedLen s - 1

/-- 41_rle_encode.md R85, R86 item 6: two machines that accept COMPRESS with the same WIDTH and HEIGHT and the same pixel bits,
each at its own SRC_ADDR, give the same completion code, the same results and, each at its own DST_ADDR, the same tokens:
whatever their other registers, their pad bits, the size of their memory and the rest of it. -/
def Obligations.CompressDependsOnPixelsOnly : Prop :=
  ∀ s u : State, s.mem.wf → u.mem.wf → CompressAccepts s → CompressAccepts u →
    s.cfg.width = u.cfg.width → s.cfg.height = u.cfg.height →
    (∀ i, i < s.cfg.width.toNat * s.cfg.height.toNat →
      s.mem.getBit s.cfg.srcAddr.toNat i = u.mem.getBit u.cfg.srcAddr.toNat i) →
    ∃ t v, exec .compress s = .next t ∧ exec .compress u = .next v ∧ t.err = v.err ∧
      (s.out = u.out → t.out = v.out) ∧
      (t.err = .ok → t.out.result = v.out.result ∧ t.out.outFlags = v.out.outFlags ∧
        t.out.outCsize = v.out.outCsize ∧
        ∀ k < t.out.result.toNat,
          t.mem.read (s.cfg.dstAddr.toNat + k) = v.mem.read (u.cfg.dstAddr.toNat + k))

/-! ### DECOMPRESS and the run tokens -/

/-- 42_rle_decode.md R87, R89, R93: where the token lengths sum to n, DECOMPRESS completes OK; the stream bits 0 .. n - 1
at DST_ADDR are the expanded runs, the pad bits are 0, every other byte reads as before; RESULT is P, OUT_FLAGS and
OUT_CSIZE are 0, and nothing else changes but STATUS and PHASE. -/
def Obligations.DecompressWritesTheBitmap : Prop :=
  ∀ s : State, s.mem.wf → DecompressAccepts s →
    (expand (sourceTokens s)).length = s.cfg.width.toNat * s.cfg.height.toNat →
    ∃ t, exec .decompress s = .next t ∧
      t = { s with
        phase := .idle, done := true, err := .ok, seq := .off, mem := t.mem
        out := { s.out with result := BitVec.ofNat 32 (packedLen s), outFlags := 0b00, outCsize := 0 } } ∧
      streamBits t.mem s.cfg.dstAddr.toNat (s.cfg.width.toNat * s.cfg.height.toNat) = expand (sourceTokens s) ∧
      (∀ q, s.cfg.width.toNat * s.cfg.height.toNat ≤ q → q < 8 * packedLen s →
        t.mem.getBit s.cfg.dstAddr.toNat q = false) ∧
      SameOutside { base := s.cfg.dstAddr.toNat, len := packedLen s } s.mem t.mem

/-- 42_rle_decode.md R90, R92, 60_exceptions.md R105: where token k is the first to pass pixel n - 1, DECOMPRESS ends in
ERR_OVERRUN with ERR_INFO = k; its destination window holds free draws, every other byte reads as before. -/
def Obligations.DecompressOverrun : Prop :=
  ∀ (s : State) (k : Nat), s.mem.wf → DecompressAccepts s → k < s.cfg.srcSize.toNat →
    (expand ((sourceTokens s).take k)).length ≤ s.cfg.width.toNat * s.cfg.height.toNat →
    s.cfg.width.toNat * s.cfg.height.toNat < (expand ((sourceTokens s).take (k + 1))).length →
    ∃ t, exec .decompress s = .next t ∧
      t = { raiseError s .overrun (BitVec.ofNat 32 k) with mem := t.mem, draws := s.draws + packedLen s } ∧
      FreeInside { base := s.cfg.dstAddr.toNat, len := packedLen s } s.draws t.mem ∧
      SameOutside { base := s.cfg.dstAddr.toNat, len := packedLen s } s.mem t.mem

/-- 42_rle_decode.md R91, R92, 60_exceptions.md R106: where all T tokens give fewer than n bits, DECOMPRESS ends in
ERR_UNDERRUN with ERR_INFO = the bits produced; its destination window holds free draws, every other byte reads as
before. -/
def Obligations.DecompressUnderrun : Prop :=
  ∀ s : State, s.mem.wf → DecompressAccepts s →
    (expand (sourceTokens s)).length < s.cfg.width.toNat * s.cfg.height.toNat →
    ∃ t, exec .decompress s = .next t ∧
      t = { raiseError s .underrun (BitVec.ofNat 32 (expand (sourceTokens s)).length) with
        mem := t.mem, draws := s.draws + packedLen s } ∧
      FreeInside { base := s.cfg.dstAddr.toNat, len := packedLen s } s.draws t.mem ∧
      SameOutside { base := s.cfg.dstAddr.toNat, len := packedLen s } s.mem t.mem

/-- 42_rle_decode.md R91: DECOMPRESS completes OK exactly when the token lengths sum to exactly n. -/
def Obligations.DecompressCompletesExactlyOnSumN : Prop :=
  ∀ s : State, DecompressAccepts s →
    ∃ t, exec .decompress s = .next t ∧
      (t.err = .ok ↔ (expand (sourceTokens s)).length = s.cfg.width.toNat * s.cfg.height.toNat)

/-- 42_rle_decode.md R95: decompressing what COMPRESS wrote, in any machine whose registers describe it, completes OK and
gives back the n pixel bits, with the pad bits 0; byte for byte exactly when the pad bits of the bitmap are 0. -/
def Obligations.DecompressUndoesCompress : Prop :=
  ∀ s t u : State, s.mem.wf → CompressAccepts s → exec .compress s = .next t → t.err = .ok →
    u.mem.wf → DecompressAccepts u → u.cfg.width = s.cfg.width → u.cfg.height = s.cfg.height →
    u.cfg.srcSize = t.out.outCsize →
    (∀ k < t.out.outCsize.toNat,
      u.mem.read (u.cfg.srcAddr.toNat + k) = t.mem.read (s.cfg.dstAddr.toNat + k)) →
    ∃ r, exec .decompress u = .next r ∧ r.err = .ok ∧
      (∀ i, i < s.cfg.width.toNat * s.cfg.height.toNat →
        r.mem.getBit u.cfg.dstAddr.toNat i = s.mem.getBit s.cfg.srcAddr.toNat i) ∧
      (∀ q, s.cfg.width.toNat * s.cfg.height.toNat ≤ q → q < 8 * packedLen s →
        r.mem.getBit u.cfg.dstAddr.toNat q = false) ∧
      ((∀ j < packedLen s, r.mem.read (u.cfg.dstAddr.toNat + j) = s.mem.read (s.cfg.srcAddr.toNat + j)) ↔
        (∀ q, s.cfg.width.toNat * s.cfg.height.toNat ≤ q → q < 8 * packedLen s →
          s.mem.getBit s.cfg.srcAddr.toNat q = false))

/-- 42_rle_decode.md R88, R89 (log entry 7): RUN0 and RUN1, as token k of a DECOMPRESS in progress with pos bits produced and
room for the run, append `len` bits of their value: the next token is k + 1, pos + len bits are produced, every other stream bit from
DST_ADDR on and every byte below it read as before, and nothing else changes. -/
def Obligations.RunTokenAppendsItsRun : Prop :=
  ∀ (s : State) (d : Decoder) (v : Bool) (len : Nat), s.mem.wf →
    s.seq = .decoding d → decoderReady s d = true → d.k < s.cfg.srcSize.toNat → 1 ≤ len → len ≤ 128 →
    d.pos + len ≤ s.cfg.width.toNat * s.cfg.height.toNat →
    ∃ t, exec (if v then .run1 len else .run0 len) s = .next t ∧
      t = { s with mem := t.mem, seq := .decoding { k := d.k + 1, pos := d.pos + len } } ∧
      (∀ j, t.mem.getBit s.cfg.dstAddr.toNat j =
        if d.pos ≤ j ∧ j < d.pos + len then v else s.mem.getBit s.cfg.dstAddr.toNat j) ∧
      (∀ a < s.cfg.dstAddr.toNat, t.mem.read a = s.mem.read a)

/-- 42_rle_decode.md R90, R92 (log entry 7): RUN0 and RUN1 with no room for the run end the command in ERR_OVERRUN with ERR_INFO = k; the
destination window holds free draws, every other byte reads as before. -/
def Obligations.RunTokenOverruns : Prop :=
  ∀ (s : State) (d : Decoder) (v : Bool) (len : Nat), s.mem.wf →
    s.seq = .decoding d → decoderReady s d = true → d.k < s.cfg.srcSize.toNat → 1 ≤ len → len ≤ 128 →
    s.cfg.width.toNat * s.cfg.height.toNat < d.pos + len →
    ∃ t, exec (if v then .run1 len else .run0 len) s = .next t ∧
      t = { raiseError s .overrun (BitVec.ofNat 32 d.k) with mem := t.mem, draws := s.draws + packedLen s } ∧
      FreeInside { base := s.cfg.dstAddr.toNat, len := packedLen s } s.draws t.mem ∧
      SameOutside { base := s.cfg.dstAddr.toNat, len := packedLen s } s.mem t.mem

/-- The model's choice (log entry 9), from 42_rle_decode.md R89: a run token means something only as a token of a
DECOMPRESS in progress with a token left. -/
def Obligations.RunTokenNeedsDecompressInProgress : Prop :=
  ∀ (s : State) (len : Nat),
    (∀ d, s.seq = .decoding d → ¬ (decoderReady s d = true ∧ d.k < s.cfg.srcSize.toNat)) →
    exec (.run0 len) s = .refused .noCommandInProgress ∧ exec (.run1 len) s = .refused .noCommandInProgress

/-! ### What every instruction leaves unchanged -/

/-- 10_state.md R32, R33, R38: no instruction changes a configuration register, LATCHED_CMD, the memory's size, or
anything of the host. -/
def Obligations.InstructionsKeepConfiguration : Prop :=
  ∀ (i : Instr) (s t : State), exec i s = .next t →
    t.cfg = s.cfg ∧ t.latchedCmd = s.latchedCmd ∧ t.lastAddr = s.lastAddr ∧ t.resetIn = s.resetIn ∧
    t.turns = s.turns ∧ t.unobserved = s.unobserved ∧ t.program = s.program ∧ t.seen = s.seen

/-- 20_memory.md R45, R49: an instruction never writes a byte outside its destination window; GET_BIT and PACKED_BYTES
write no memory. -/
def Obligations.InstructionsWriteOnlyTheirDestination : Prop :=
  (∀ (i : Instr) (s t : State), exec i s = .next t → SameOutside (dstWindow s i) s.mem t.mem) ∧
  (∀ s t : State, (exec .getBit s = .next t ∨ exec .packedBytes s = .next t) → t.mem = s.mem)

/-- 10_state.md R27 to R30: a command that ends in error leaves RESULT, OUT_FLAGS and OUT_CSIZE as they were; one that
completes OK leaves ERR_INFO as it was, OUT_FLAGS and OUT_CSIZE too unless it is a codec command. -/
def Obligations.InstructionsKeepOtherResults : Prop :=
  ∀ (i : Instr) (s t : State), exec i s = .next t → t.phase = .idle →
    (t.err ≠ .ok → t.out.result = s.out.result ∧ t.out.outFlags = s.out.outFlags ∧ t.out.outCsize = s.out.outCsize) ∧
    (t.err = .ok → t.out.errInfo = s.out.errInfo) ∧
    ((i = .getBit ∨ i = .setBit ∨ i = .packedBytes) →
      t.out.outFlags = s.out.outFlags ∧ t.out.outCsize = s.out.outCsize)

/-! ### The step -/

/-- 10_state.md R38: a step in which the core moves, with a defined command accepted and none of it done, is exec of the
decoded instruction, the turn taken. -/
def Obligations.StepRunsTheLatchedCommand : Prop :=
  ∀ (s : State) (i : Instr), s.resetIn = false → nextTurn s = .core → s.phase = .busy → s.seq = .off →
    decodeCommand s.latchedCmd = .ok i → step s = exec i (takeTurn s)

/-- 42_rle_decode.md R88, R89 (log entry 7): a step in which the core takes one internal action, in a DECOMPRESS in
progress with a token left, is exec of the token at SRC_ADDR + k, the turn taken. -/
def Obligations.StepRunsTheNextToken : Prop :=
  ∀ (s : State) (d : Decoder), s.resetIn = false → nextTurn s = .coreUnit → s.phase = .busy →
    s.seq = .decoding d → d.k < s.cfg.srcSize.toNat →
    step s = exec (decodeToken (s.mem.read (s.cfg.srcAddr.toNat + d.k))) (takeTurn s)

/-- The model's own (log entry 8): withFetchWord places an instruction where the next step runs exactly it. -/
def Obligations.PlacedInstructionRunsNext : Prop :=
  ∀ (s : State) (nbits w : Nat) (i : Instr), s.mem.wf → decodeTableWord nbits w = some i →
    step (s.withFetchWord nbits w) = exec i (takeTurn (s.withFetchWord nbits w)) ∧
    ∃ t, step (s.withFetchWord nbits w) = .next t

/-- 60_exceptions.md R119, 10_state.md R35, R37, R38: while IDLE the core does nothing; while BUSY no step of any agent but
reset changes a configuration register, LATCHED_CMD or the memory's size. -/
def Obligations.IdleCoreRestsAndBusyFixesOperands : Prop :=
  (∀ s : State, s.phase = .idle → coreStep s = .next s ∧ coreUnit s = .next s) ∧
  (∀ s t : State, s.phase = .busy → s.resetIn = false → step s = .next t →
    t.cfg = s.cfg ∧ t.latchedCmd = s.latchedCmd ∧ t.lastAddr = s.lastAddr)

/-- 10_state.md R38, 70_reset_and_hazards.md R130: the core step of every accepted command, defined or not, begun or not,
completes: the block is IDLE with DONE = 1, the configuration registers are as they were, and an error left the results at
0. -/
def Obligations.EveryAcceptedCommandCompletes : Prop :=
  ∀ s : State, s.Inv → s.phase = .busy → s.resetIn = false → nextTurn s = .core →
    ∃ t, step s = .next t ∧ t.phase = .idle ∧ t.done = true ∧ t.seq = .off ∧ t.cfg = s.cfg ∧
      t.latchedCmd = s.latchedCmd ∧
      (t.err ≠ .ok → t.out.result = 0 ∧ t.out.outFlags = 0 ∧ t.out.outCsize = 0) ∧
      SameOutside (runningDst s) s.mem t.mem

/-- 70_reset_and_hazards.md R130 (log entry 6): whatever the list of turns, a BUSY machine that meets the invariant and is not
reset has completed its command at the latest one step after the list is used up, or a move of the host has stopped the run
on the way. No move of the core stops it. -/
def Obligations.CoreIsEventuallyTaken : Prop :=
  ∀ s : State, s.Inv → s.phase = .busy → s.resetIn = false → .assertReset ∉ s.program →
    ∃ k ≤ s.turns.length + 1, ∃ u : State, StepsTo k s u ∧
      ((u.phase = .idle ∧ u.done = true) ∨ (nextTurn u = .host ∧ ∀ v, step u ≠ .next v))

/-- 10_state.md R34, 20_memory.md R54 (log entry 7): an internal action of the core is a part of the atomic core step: what is left of
the command after it, taken as one step, ends in the same state as the whole. -/
def Obligations.InternalActionsMakeUpTheCoreStep : Prop :=
  ∀ s : State, s.Inv → s.phase = .busy →
    ∃ t, coreUnit s = .next t ∧
      (t.phase = .busy → coreStep t = coreStep s) ∧ (t.phase = .idle → coreStep s = .next t)

/-! ### The host -/

/-- The model's reading (log entry 10) of 70_reset_and_hazards.md R126: acceptance opens a BUSY interval over the command's
windows, a read of STATUS with BUSY = 0 ends it and one with BUSY = 1 does not, and while it is open a host write into a
window of it is refused; a running command's always is. -/
def Obligations.BusyIntervalIsForbidden : Prop :=
  (∀ (s : State) (w : Word), s.phase = .idle →
    ∃ t, hostOp s (.regWrite 0x00 4 w) = .next t ∧
      t.unobserved = { src := runningSrc t, dst := runningDst t } :: s.unobserved) ∧
  (∀ s : State, ∃ t, hostOp s (.regRead 0x04 4) = .next t ∧
    t.unobserved = if s.phase = .idle then [] else s.unobserved) ∧
  (∀ (s : State) (addr : Word) (v : Byte), addr.toNat < s.lastAddr.toNat + 1 →
    ((∃ w ∈ s.unobserved, w.src.contains addr.toNat ∨ w.dst.contains addr.toNat) →
      hostOp s (.memWrite addr v) = .refused (.windowHazard addr)) ∧
    (s.Inv → s.phase = .busy → (runningSrc s).contains addr.toNat ∨ (runningDst s).contains addr.toNat →
      hostOp s (.memWrite addr v) = .refused (.windowHazard addr)))

/-- 20_memory.md R40, R49, R53 (log entry 10): a host write anywhere in the memory outside open BUSY intervals changes that
byte and nothing else. -/
def Obligations.HostMemoryWrite : Prop :=
  ∀ (s : State) (addr : Word) (v : Byte), s.mem.wf → addr.toNat < s.lastAddr.toNat + 1 →
    (∀ w ∈ s.unobserved, ¬ w.src.contains addr.toNat ∧ ¬ w.dst.contains addr.toNat) →
    ∃ t, hostOp s (.memWrite addr v) = .next t ∧ t = { s with mem := t.mem } ∧ t.mem.read addr.toNat = v ∧
      ∀ a, a ≠ addr.toNat → t.mem.read a = s.mem.read a

/-- 70_reset_and_hazards.md R126, 20_memory.md R49 (log entry 10): a host read of a destination byte of a command whose BUSY
interval is open returns a free value and does not disturb the command (a source byte that is a destination byte too is one of
them: the model's choice, log entry 18); any other returns the memory's value and changes nothing. -/
def Obligations.HostMemoryRead : Prop :=
  ∀ (s : State) (addr : Word), addr.toNat < s.lastAddr.toNat + 1 →
    ((∃ w ∈ s.unobserved, w.dst.contains addr.toNat) →
      hostOp s (.memRead addr) = .next { s with
        seen := .mem addr (Config.freeByte s.draws) :: s.seen, draws := s.draws + 1 }) ∧
    ((∀ w ∈ s.unobserved, ¬ w.dst.contains addr.toNat) →
      hostOp s (.memRead addr) = .next { s with seen := .mem addr (s.mem.read addr.toNat) :: s.seen })

/-- The model's choice (log entry 17), beside 20_memory.md R40: the addresses are 0 .. MEM_BYTES - 1, and a host access to
another one, to which the spec gives no effect, faults. -/
def Obligations.MissingAddressFaults : Prop :=
  ∀ (s : State) (addr : Word) (v : Byte), s.lastAddr.toNat + 1 ≤ addr.toNat →
    hostOp s (.memRead addr) = .fault (.noSuchAddress addr) ∧
    hostOp s (.memWrite addr v) = .fault (.noSuchAddress addr)

/-- 30_encoding.md R67: WAIT reads STATUS and ends when BUSY = 0; while BUSY the host polls again. (The host's open BUSY
intervals, log entry 10, end with it.) -/
def Obligations.WaitPollsStatus : Prop :=
  ∀ (s : State) (rest : List HostOp), s.program = .wait :: rest →
    hostStep s = .next { s with
      seen := .reg 0x04 (statusWord s) :: s.seen
      unobserved := if s.phase = .busy then s.unobserved else []
      program := if s.phase = .busy then .wait :: rest else rest }

/-! ### Reset and the invariant -/

/-- 70_reset_and_hazards.md R121, R122: with the reset input asserted, the step is the reset, whatever is pending and
whoever's turn it is: every register is 0, PHASE IDLE, LATCHED_CMD 0, no hidden state; while IDLE the memory is unchanged, and
its size always is (R124). (What the host keeps is the model's choice, log entry 5, and left open here.) -/
def Obligations.ResetTakesPriority : Prop :=
  ∀ s : State, s.resetIn = true →
    ∃ t, step s = .next t ∧
      t = { State.reset with
        mem := t.mem, draws := t.draws, lastAddr := s.lastAddr, resetIn := t.resetIn, turns := t.turns
        unobserved := t.unobserved, program := t.program, seen := t.seen } ∧
      (∀ r : Reg, readReg t r = 0) ∧
      (s.phase = .idle → t.mem = s.mem ∧ t.draws = s.draws)

/-- 70_reset_and_hazards.md R123 (log entry 4): reset while BUSY leaves every byte outside the abandoned command's
destination window unchanged, and the source window too, but for SET_BIT. -/
def Obligations.ResetWhileBusyKeepsOtherBytes : Prop :=
  ∀ s : State, s.phase = .busy →
    SameOutside (runningDst s) s.mem (resetBlock s).mem ∧
    (s.latchedCmd ≠ 0x00000002 → ∀ a, (runningSrc s).contains a → (resetBlock s).mem.read a = s.mem.read a)

/-- 10_state.md R14, R39: every register and the core state of the machine right after reset. -/
def Obligations.ResetValuesOfTheBlock : Prop :=
  (∀ r : Reg, readReg State.reset r = 0) ∧ State.reset.phase = .idle ∧ State.reset.latchedCmd = 0 ∧
    State.reset.seq = .off

/-- The machine right after reset meets the invariant (its memory and the host's lists are the model's choice, log entries 1,
5, 6 and 10). -/
def Obligations.ResetMeetsTheInvariant : Prop := State.reset.Inv

/-- 10_state.md R18, R27 to R30, R32, R35, 20_memory.md R40, 70_reset_and_hazards.md R121, R126: every step of every agent keeps
the invariant. -/
def Obligations.StepKeepsTheInvariant : Prop :=
  ∀ s t : State, s.Inv → step s = .next t → t.Inv
end

