-- ==== Sys2Proof/Laws/State.lean ====
section
/-! SUPPORT. One lemma per field of State per shared update: what the update writes there, or that it leaves it as it was. -/

namespace Sys2Proof.Machine

@[simp] theorem raiseError_cfg (s : State) (code : ErrCode) (info : Word) : (raiseError s code info).cfg = s.cfg := rfl
@[simp] theorem raiseError_out (s : State) (code : ErrCode) (info : Word) : (raiseError s code info).out = { s.out with errInfo := info } := rfl
@[simp] theorem raiseError_phase (s : State) (code : ErrCode) (info : Word) : (raiseError s code info).phase = .idle := rfl
@[simp] theorem raiseError_done (s : State) (code : ErrCode) (info : Word) : (raiseError s code info).done = true := rfl
@[simp] theorem raiseError_err (s : State) (code : ErrCode) (info : Word) : (raiseError s code info).err = code := rfl
@[simp] theorem raiseError_latchedCmd (s : State) (code : ErrCode) (info : Word) : (raiseError s code info).latchedCmd = s.latchedCmd := rfl
@[simp] theorem raiseError_seq (s : State) (code : ErrCode) (info : Word) : (raiseError s code info).seq = .off := rfl
@[simp] theorem raiseError_mem (s : State) (code : ErrCode) (info : Word) : (raiseError s code info).mem = s.mem := rfl
@[simp] theorem raiseError_lastAddr (s : State) (code : ErrCode) (info : Word) : (raiseError s code info).lastAddr = s.lastAddr := rfl
@[simp] theorem raiseError_resetIn (s : State) (code : ErrCode) (info : Word) : (raiseError s code info).resetIn = s.resetIn := rfl
@[simp] theorem raiseError_turns (s : State) (code : ErrCode) (info : Word) : (raiseError s code info).turns = s.turns := rfl
@[simp] theorem raiseError_unobserved (s : State) (code : ErrCode) (info : Word) : (raiseError s code info).unobserved = s.unobserved := rfl
@[simp] theorem raiseError_program (s : State) (code : ErrCode) (info : Word) : (raiseError s code info).program = s.program := rfl
@[simp] theorem raiseError_seen (s : State) (code : ErrCode) (info : Word) : (raiseError s code info).seen = s.seen := rfl
@[simp] theorem raiseError_draws (s : State) (code : ErrCode) (info : Word) : (raiseError s code info).draws = s.draws := rfl

@[simp] theorem completeOk_cfg (s : State) : (completeOk s).cfg = s.cfg := rfl
@[simp] theorem completeOk_out (s : State) : (completeOk s).out = s.out := rfl
@[simp] theorem completeOk_phase (s : State) : (completeOk s).phase = .idle := rfl
@[simp] theorem completeOk_done (s : State) : (completeOk s).done = true := rfl
@[simp] theorem completeOk_err (s : State) : (completeOk s).err = .ok := rfl
@[simp] theorem completeOk_latchedCmd (s : State) : (completeOk s).latchedCmd = s.latchedCmd := rfl
@[simp] theorem completeOk_seq (s : State) : (completeOk s).seq = .off := rfl
@[simp] theorem completeOk_mem (s : State) : (completeOk s).mem = s.mem := rfl
@[simp] theorem completeOk_lastAddr (s : State) : (completeOk s).lastAddr = s.lastAddr := rfl
@[simp] theorem completeOk_resetIn (s : State) : (completeOk s).resetIn = s.resetIn := rfl
@[simp] theorem completeOk_turns (s : State) : (completeOk s).turns = s.turns := rfl
@[simp] theorem completeOk_unobserved (s : State) : (completeOk s).unobserved = s.unobserved := rfl
@[simp] theorem completeOk_program (s : State) : (completeOk s).program = s.program := rfl
@[simp] theorem completeOk_seen (s : State) : (completeOk s).seen = s.seen := rfl
@[simp] theorem completeOk_draws (s : State) : (completeOk s).draws = s.draws := rfl

@[simp] theorem acceptCommand_cfg (s : State) (w : Word) : (acceptCommand s w).cfg = s.cfg := rfl
@[simp] theorem acceptCommand_out (s : State) (w : Word) : (acceptCommand s w).out = ResultRegs.zero := rfl
@[simp] theorem acceptCommand_phase (s : State) (w : Word) : (acceptCommand s w).phase = .busy := rfl
@[simp] theorem acceptCommand_done (s : State) (w : Word) : (acceptCommand s w).done = false := rfl
@[simp] theorem acceptCommand_err (s : State) (w : Word) : (acceptCommand s w).err = .ok := rfl
@[simp] theorem acceptCommand_latchedCmd (s : State) (w : Word) : (acceptCommand s w).latchedCmd = w := rfl
@[simp] theorem acceptCommand_seq (s : State) (w : Word) : (acceptCommand s w).seq = .off := rfl
@[simp] theorem acceptCommand_mem (s : State) (w : Word) : (acceptCommand s w).mem = s.mem := rfl
@[simp] theorem acceptCommand_lastAddr (s : State) (w : Word) : (acceptCommand s w).lastAddr = s.lastAddr := rfl
@[simp] theorem acceptCommand_resetIn (s : State) (w : Word) : (acceptCommand s w).resetIn = s.resetIn := rfl
@[simp] theorem acceptCommand_turns (s : State) (w : Word) : (acceptCommand s w).turns = s.turns := rfl
@[simp] theorem acceptCommand_unobserved (s : State) (w : Word) : (acceptCommand s w).unobserved = s.unobserved := rfl
@[simp] theorem acceptCommand_program (s : State) (w : Word) : (acceptCommand s w).program = s.program := rfl
@[simp] theorem acceptCommand_seen (s : State) (w : Word) : (acceptCommand s w).seen = s.seen := rfl
@[simp] theorem acceptCommand_draws (s : State) (w : Word) : (acceptCommand s w).draws = s.draws := rfl

@[simp] theorem acceptFromHost_cfg (s : State) (w : Word) : (acceptFromHost s w).cfg = s.cfg := rfl
@[simp] theorem acceptFromHost_out (s : State) (w : Word) : (acceptFromHost s w).out = ResultRegs.zero := rfl
@[simp] theorem acceptFromHost_phase (s : State) (w : Word) : (acceptFromHost s w).phase = .busy := rfl
@[simp] theorem acceptFromHost_done (s : State) (w : Word) : (acceptFromHost s w).done = false := rfl
@[simp] theorem acceptFromHost_err (s : State) (w : Word) : (acceptFromHost s w).err = .ok := rfl
@[simp] theorem acceptFromHost_latchedCmd (s : State) (w : Word) : (acceptFromHost s w).latchedCmd = w := rfl
@[simp] theorem acceptFromHost_seq (s : State) (w : Word) : (acceptFromHost s w).seq = .off := rfl
@[simp] theorem acceptFromHost_mem (s : State) (w : Word) : (acceptFromHost s w).mem = s.mem := rfl
@[simp] theorem acceptFromHost_lastAddr (s : State) (w : Word) : (acceptFromHost s w).lastAddr = s.lastAddr := rfl
@[simp] theorem acceptFromHost_resetIn (s : State) (w : Word) : (acceptFromHost s w).resetIn = s.resetIn := rfl
@[simp] theorem acceptFromHost_turns (s : State) (w : Word) : (acceptFromHost s w).turns = s.turns := rfl
@[simp] theorem acceptFromHost_unobserved (s : State) (w : Word) : (acceptFromHost s w).unobserved = { src := runningSrc (acceptCommand s w), dst := runningDst (acceptCommand s w) } :: s.unobserved := rfl
@[simp] theorem acceptFromHost_program (s : State) (w : Word) : (acceptFromHost s w).program = s.program := rfl
@[simp] theorem acceptFromHost_seen (s : State) (w : Word) : (acceptFromHost s w).seen = s.seen := rfl
@[simp] theorem acceptFromHost_draws (s : State) (w : Word) : (acceptFromHost s w).draws = s.draws := rfl

@[simp] theorem scramble_cfg (s : State) (x : Window) (a n : Nat) : (scramble s x a n).cfg = s.cfg := rfl
@[simp] theorem scramble_out (s : State) (x : Window) (a n : Nat) : (scramble s x a n).out = s.out := rfl
@[simp] theorem scramble_phase (s : State) (x : Window) (a n : Nat) : (scramble s x a n).phase = s.phase := rfl
@[simp] theorem scramble_done (s : State) (x : Window) (a n : Nat) : (scramble s x a n).done = s.done := rfl
@[simp] theorem scramble_err (s : State) (x : Window) (a n : Nat) : (scramble s x a n).err = s.err := rfl
@[simp] theorem scramble_latchedCmd (s : State) (x : Window) (a n : Nat) : (scramble s x a n).latchedCmd = s.latchedCmd := rfl
@[simp] theorem scramble_seq (s : State) (x : Window) (a n : Nat) : (scramble s x a n).seq = s.seq := rfl
@[simp] theorem scramble_mem (s : State) (x : Window) (a n : Nat) : (scramble s x a n).mem = s.mem.scramble x a n s.draws := rfl
@[simp] theorem scramble_lastAddr (s : State) (x : Window) (a n : Nat) : (scramble s x a n).lastAddr = s.lastAddr := rfl
@[simp] theorem scramble_resetIn (s : State) (x : Window) (a n : Nat) : (scramble s x a n).resetIn = s.resetIn := rfl
@[simp] theorem scramble_turns (s : State) (x : Window) (a n : Nat) : (scramble s x a n).turns = s.turns := rfl
@[simp] theorem scramble_unobserved (s : State) (x : Window) (a n : Nat) : (scramble s x a n).unobserved = s.unobserved := rfl
@[simp] theorem scramble_program (s : State) (x : Window) (a n : Nat) : (scramble s x a n).program = s.program := rfl
@[simp] theorem scramble_seen (s : State) (x : Window) (a n : Nat) : (scramble s x a n).seen = s.seen := rfl
@[simp] theorem scramble_draws (s : State) (x : Window) (a n : Nat) : (scramble s x a n).draws = s.draws + n := rfl

/-! Taking a turn changes only the list of turns. -/

@[simp] theorem takeTurn_cfg (s : State) : (takeTurn s).cfg = s.cfg := rfl
@[simp] theorem takeTurn_out (s : State) : (takeTurn s).out = s.out := rfl
@[simp] theorem takeTurn_phase (s : State) : (takeTurn s).phase = s.phase := rfl
@[simp] theorem takeTurn_done (s : State) : (takeTurn s).done = s.done := rfl
@[simp] theorem takeTurn_err (s : State) : (takeTurn s).err = s.err := rfl
@[simp] theorem takeTurn_latchedCmd (s : State) : (takeTurn s).latchedCmd = s.latchedCmd := rfl
@[simp] theorem takeTurn_seq (s : State) : (takeTurn s).seq = s.seq := rfl
@[simp] theorem takeTurn_mem (s : State) : (takeTurn s).mem = s.mem := rfl
@[simp] theorem takeTurn_lastAddr (s : State) : (takeTurn s).lastAddr = s.lastAddr := rfl
@[simp] theorem takeTurn_resetIn (s : State) : (takeTurn s).resetIn = s.resetIn := rfl
@[simp] theorem takeTurn_turns (s : State) : (takeTurn s).turns = s.turns.tail := rfl
@[simp] theorem takeTurn_unobserved (s : State) : (takeTurn s).unobserved = s.unobserved := rfl
@[simp] theorem takeTurn_program (s : State) : (takeTurn s).program = s.program := rfl
@[simp] theorem takeTurn_seen (s : State) : (takeTurn s).seen = s.seen := rfl
@[simp] theorem takeTurn_draws (s : State) : (takeTurn s).draws = s.draws := rfl

@[simp] theorem memBytes_takeTurn (s : State) : memBytes (takeTurn s) = memBytes s := rfl

end Sys2Proof.Machine
end

