-- ==== Sys2Proof/Laws/Memory.lean ====
section
/-! SUPPORT. The laws of the buffer memory: read after write, locality, the canonical form, the free bytes. -/

namespace Sys2Proof.Machine

theorem Memory.read_of_below {m : Memory} {a : Nat} (h : ∀ c ∈ m, a < c.1) : m.read a = unlistedByte := by
  induction m with
  | nil => rfl
  | cons c m ih =>
    have hc := h c (by simp)
    rw [Memory.read, if_neg (by omega)]
    exact ih fun d hd => h d (by simp [hd])

/-- A write changes only its byte (20_memory.md R49). -/
theorem Memory.read_write_other (m : Memory) {a b : Nat} (v : Byte) (h : b ≠ a) :
    (m.write a v).read b = m.read b := by
  induction m with
  | nil =>
    by_cases hv : v = unlistedByte <;> simp [Memory.write, Memory.read, hv, h]
  | cons c m ih =>
    obtain ⟨k, w⟩ := c
    simp only [Memory.write]
    split
    · split
      · rfl
      · rw [Memory.read, if_neg h]
    · split
      · next _ hk =>
        subst hk
        split <;> simp [Memory.read, h]
      · simp only [Memory.read, ih]

/-- A read returns the last value written to that byte (20_memory.md R49). -/
theorem Memory.read_write_self {m : Memory} (hm : m.wf) (a : Nat) (v : Byte) : (m.write a v).read a = v := by
  induction m with
  | nil => by_cases hv : v = unlistedByte <;> simp [Memory.write, Memory.read, hv]
  | cons c m ih =>
    obtain ⟨k, w⟩ := c
    obtain ⟨hs, hz⟩ := hm
    rw [List.pairwise_cons] at hs
    have hm' : Memory.wf m := ⟨hs.2, fun d hd => hz d (by simp [hd])⟩
    simp only [Memory.write]
    split
    · next hk =>
      split
      · next hv =>
        rw [hv]
        refine Memory.read_of_below fun d hd => ?_
        rcases List.mem_cons.1 hd with rfl | hd
        · exact hk
        · exact Nat.lt_trans hk (hs.1 d hd)
      · simp [Memory.read]
    · split
      · next _ hk =>
        subst hk
        split
        · next hv => rw [hv]; exact Memory.read_of_below hs.1
        · simp [Memory.read]
      · next _ hk =>
        rw [Memory.read, if_neg hk]
        exact ih hm'

/-- The cells after a write are the old ones and the written one. -/
theorem Memory.mem_write {m : Memory} {a : Nat} {v : Byte} {c : Host.Cell} (h : c ∈ m.write a v) :
    c ∈ m ∨ (c = (a, v) ∧ v ≠ unlistedByte) := by
  induction m with
  | nil => by_cases hv : v = unlistedByte <;> simp_all [Memory.write]
  | cons d m ih =>
    obtain ⟨k, w⟩ := d
    simp only [Memory.write] at h
    split at h
    · split at h
      · exact .inl h
      · rcases List.mem_cons.1 h with h | h
        · exact .inr ⟨h, ‹_›⟩
        · exact .inl h
    · split at h
      · split at h
        · exact .inl (by simp [h])
        · rcases List.mem_cons.1 h with h | h
          · exact .inr ⟨h, ‹_›⟩
          · exact .inl (by simp [h])
      · rcases List.mem_cons.1 h with h | h
        · exact .inl (by simp [h])
        · rcases ih h with h | h
          · exact .inl (by simp [h])
          · exact .inr h

/-- A write keeps the canonical form. -/
theorem Memory.write_wf {m : Memory} (hm : m.wf) (a : Nat) (v : Byte) : (m.write a v).wf := by
  refine ⟨?_, fun c hc => ?_⟩
  · induction m with
    | nil => by_cases hv : v = unlistedByte <;> simp [Memory.write, hv]
    | cons c m ih =>
      obtain ⟨k, w⟩ := c
      obtain ⟨hs, hz⟩ := hm
      have hs' := hs
      rw [List.pairwise_cons] at hs
      have hm' : Memory.wf m := ⟨hs.2, fun d hd => hz d (by simp [hd])⟩
      simp only [Memory.write]
      split
      · next hk =>
        split
        · exact hs'
        · refine List.pairwise_cons.2 ⟨fun d hd => ?_, hs'⟩
          rcases List.mem_cons.1 hd with rfl | hd
          · exact hk
          · exact Nat.lt_trans hk (hs.1 d hd)
      · split
        · next _ hk =>
          subst hk
          split
          · exact hs.2
          · exact List.pairwise_cons.2 hs
        · refine List.pairwise_cons.2 ⟨fun d hd => ?_, ih hm'⟩
          rcases Memory.mem_write hd with hd | ⟨rfl, -⟩
          · exact hs.1 d hd
          · show k < a
            omega
  · rcases Memory.mem_write hc with hc | ⟨rfl, hv⟩
    · exact hm.2 c hc
    · exact hv

/-- Every listed address is below `n`. -/
abbrev Memory.boundedBy (m : Memory) (n : Nat) : Prop := ∀ c ∈ m, c.1 < n

theorem Memory.write_bounded {m : Memory} {n a : Nat} (hm : m.boundedBy n) (ha : a < n) (v : Byte) :
    (m.write a v).boundedBy n := by
  intro c hc
  rcases Memory.mem_write hc with hc | ⟨rfl, -⟩
  · exact hm c hc
  · exact ha

/-! ### Bits -/

/-- The mask of bit q has that one bit. -/
theorem mask_bit : ∀ q k : Fin 8, (1#8 <<< q.val).getLsbD k.val = decide (k = q) := by decide

/-- Only bit `7 - (i mod 8)` of the byte changes (40_bit_array.md R70). -/
theorem withBit_bit (old : Byte) (i : Nat) (v : Bool) (k : Nat) (hk : k < 8) :
    (withBit old i v).getLsbD k = if k = 7 - i % 8 then v else old.getLsbD k := by
  unfold withBit
  obtain ⟨q, hq⟩ : ∃ q : Fin 8, 7 - i % 8 = q.val := ⟨⟨7 - i % 8, by omega⟩, rfl⟩
  have hm := mask_bit q ⟨k, hk⟩
  simp only [Fin.ext_iff] at hm
  rw [hq]
  cases v
  · simp only [Bool.false_eq_true, if_false, BitVec.getLsbD_and, BitVec.getLsbD_not, hm, decide_eq_true hk]
    by_cases h : k = q.val <;> simp [h]
  · simp only [if_true, BitVec.getLsbD_or, hm]
    by_cases h : k = q.val <;> simp [h]

theorem getBit_mod_cases {i j : Nat} (h : i / 8 = j / 8) (hm : 7 - j % 8 = 7 - i % 8) : j = i := by
  omega

/-- 40_bit_array.md R76 and R77 in one: reading any stream bit after `set_bit`. -/
theorem Memory.getBit_setBit {m : Memory} (hm : m.wf) (base i j : Nat) (v : Bool) :
    (m.setBit base i v).getBit base j = if j = i then v else m.getBit base j := by
  unfold Memory.getBit Memory.setBit
  by_cases ha : j / 8 = i / 8
  · rw [ha, Memory.read_write_self hm, withBit_bit _ _ _ _ (by omega)]
    by_cases hj : j = i
    · simp [hj]
    · rw [if_neg hj, if_neg fun h => hj (getBit_mod_cases ha.symm h)]
  · rw [Memory.read_write_other _ _ (by omega), if_neg (by rintro rfl; exact ha rfl)]

/-- `set_bit` writes one byte (40_bit_array.md R77). -/
theorem Memory.read_setBit_other (m : Memory) {base i a : Nat} (v : Bool) (h : a ≠ base + i / 8) :
    (m.setBit base i v).read a = m.read a :=
  Memory.read_write_other _ _ h

theorem Memory.setBit_wf {m : Memory} (hm : m.wf) (base i : Nat) (v : Bool) : (m.setBit base i v).wf :=
  Memory.write_wf hm _ _

theorem Memory.setBits_wf {m : Memory} (hm : m.wf) (base pos len : Nat) (v : Bool) :
    (m.setBits base pos len v).wf := by
  induction len generalizing m pos with
  | zero => exact hm
  | succ len ih => exact ih (Memory.setBit_wf hm _ _ _) _

/-- The bits `pos .. pos + len - 1` become `v`, every other stream bit stays (42_rle_decode.md R89). -/
theorem Memory.getBit_setBits {m : Memory} (hm : m.wf) (base pos len j : Nat) (v : Bool) :
    (m.setBits base pos len v).getBit base j =
      if pos ≤ j ∧ j < pos + len then v else m.getBit base j := by
  induction len generalizing m pos with
  | zero => rw [Memory.setBits, if_neg (by omega)]
  | succ len ih =>
    rw [Memory.setBits, ih (Memory.setBit_wf hm _ _ _), Memory.getBit_setBit hm]
    by_cases h1 : j = pos
    · subst h1; simp
    · simp only [h1, if_false]
      refine if_congr ?_ rfl rfl
      omega

/-- `set_bits` writes only bytes that hold one of its bits. -/
theorem Memory.read_setBits_other (m : Memory) {base pos len a : Nat} (v : Bool)
    (h : ∀ j, pos ≤ j → j < pos + len → a ≠ base + j / 8) : (m.setBits base pos len v).read a = m.read a := by
  induction len generalizing m pos with
  | zero => rfl
  | succ len ih =>
    rw [Memory.setBits, ih _ fun j h1 h2 => h j (by omega) (by omega),
      Memory.read_setBit_other _ _ (h pos (by omega) (by omega))]

theorem Memory.setBits_bounded {m : Memory} {n base pos len : Nat} (hm : m.boundedBy n) (v : Bool)
    (h : ∀ j, pos ≤ j → j < pos + len → base + j / 8 < n) : (m.setBits base pos len v).boundedBy n := by
  induction len generalizing m pos with
  | zero => exact hm
  | succ len ih =>
    exact ih (Memory.write_bounded hm (h pos (by omega) (by omega)) _) fun j h1 h2 => h j (by omega) (by omega)

/-! ### Free bytes -/

theorem Memory.scramble_wf {m : Memory} (hm : m.wf) (x : Window) (base len draw : Nat) :
    (m.scramble x base len draw).wf := by
  induction len generalizing m base draw with
  | zero => exact hm
  | succ len ih =>
    refine ih ?_ _ _
    split
    · exact hm
    · exact Memory.write_wf hm _ _

theorem Memory.read_scramble_other (m : Memory) (x : Window) {base len a : Nat} (draw : Nat)
    (h : x.contains a ∨ a < base ∨ base + len ≤ a) : (m.scramble x base len draw).read a = m.read a := by
  induction len generalizing m base draw with
  | zero => rfl
  | succ len ih =>
    rw [Memory.scramble, ih _ _ (by omega)]
    split
    · rfl
    · next hb => exact Memory.read_write_other _ _ (by rintro rfl; rcases h with h | h | h; exacts [hb h, by omega, by omega])

/-- Each byte of the range outside the exempt window is its own draw (log entry 3). -/
theorem Memory.read_scramble_inside {m : Memory} (hm : m.wf) (x : Window) (base len draw j : Nat) (hj : j < len)
    (hx : ¬ x.contains (base + j)) : (m.scramble x base len draw).read (base + j) = Config.freeByte (draw + j) := by
  induction len generalizing m base draw j with
  | zero => omega
  | succ len ih =>
    rw [Memory.scramble]
    cases j with
    | zero =>
      rw [Nat.add_zero] at hx
      rw [Memory.read_scramble_other _ _ _ (.inr (.inl (by omega))), if_neg hx]
      exact Memory.read_write_self hm _ _
    | succ j =>
      have hwf : Memory.wf (if x.contains base then m else m.write base (Config.freeByte draw)) := by
        split
        · exact hm
        · exact Memory.write_wf hm _ _
      have := ih hwf (base + 1) (draw + 1) j (by omega) (by rwa [Nat.add_right_comm, Nat.add_assoc])
      rwa [Nat.add_right_comm, Nat.add_assoc, Nat.add_right_comm draw, Nat.add_assoc draw] at this

theorem Memory.scramble_bounded {m : Memory} {n base len : Nat} (hm : m.boundedBy n) (x : Window) (draw : Nat)
    (h : base + len ≤ n ∨ len = 0) : (m.scramble x base len draw).boundedBy n := by
  induction len generalizing m base draw with
  | zero => exact hm
  | succ len ih =>
    refine ih ?_ _ (by omega)
    split
    · exact hm
    · exact Memory.write_bounded hm (by omega) _

end Sys2Proof.Machine
end

