-- ==== Sys2Proof/Laws/Checks.lean ====
section
/-! SUPPORT. The sizes and checks of the commands: what they say, and what they depend on. -/

namespace Sys2Proof.Machine

/-! ### Sizes -/

theorem packedSize_eq (s : State) : packedSize s = packedLen s := rfl

theorem area_eq (s : State) : area s = s.cfg.width.toNat * s.cfg.height.toNat := rfl

/-- n ≤ 8 P (40_bit_array.md R71). -/
theorem area_le_packedLen (s : State) : area s ≤ 8 * packedLen s := by
  show s.cfg.width.toNat * s.cfg.height.toNat ≤ 8 * ((s.cfg.width.toNat * s.cfg.height.toNat + 7) / 8)
  generalize s.cfg.width.toNat * s.cfg.height.toNat = n
  omega

/-- 8 P < n + 8: at most 7 pad bits (40_bit_array.md R72). -/
theorem packedLen_lt (s : State) : 8 * packedLen s < area s + 8 := by
  show 8 * ((s.cfg.width.toNat * s.cfg.height.toNat + 7) / 8) < s.cfg.width.toNat * s.cfg.height.toNat + 8
  generalize s.cfg.width.toNat * s.cfg.height.toNat = n
  omega

/-- P fits in 32 bits where the area does (40_bit_array.md R71). -/
theorem packedLen_le {s : State} (h : s.cfg.width.toNat * s.cfg.height.toNat ≤ 2 ^ 32 - 1) :
    packedLen s ≤ 2 ^ 29 := by
  unfold packedLen
  generalize s.cfg.width.toNat * s.cfg.height.toNat = n at h
  omega

theorem capacity_eq (s : State) : capacity s = packedLen s - 1 := rfl

/-! ### The sizes and checks depend only on the registers and the memory's size -/

section Congruence
variable {s t : State} (hc : t.cfg = s.cfg)
include hc

theorem area_congr : area t = area s := by simp [area, hc]
theorem packedLen_congr : packedLen t = packedLen s := by simp [packedLen, hc]
theorem packedSize_congr : packedSize t = packedSize s := by simp [packedSize, hc]
theorem capacity_congr : capacity t = capacity s := by simp [capacity, packedSize, hc]
theorem srcBase_congr : srcBase t = srcBase s := by simp [srcBase, hc]
theorem srcLen_congr : srcLen t = srcLen s := by simp [srcLen, hc]
theorem dstBase_congr : dstBase t = dstBase s := by simp [dstBase, hc]
theorem srcWindow_congr (i : Instr) : srcWindow t i = srcWindow s i := by
  cases i <;> simp [srcWindow, srcBase, srcLen, packedSize, hc]
theorem dstWindow_congr (i : Instr) : dstWindow t i = dstWindow s i := by
  cases i <;> simp [dstWindow, srcBase, dstBase, bitIndex, capacity, packedSize, hc]

variable (hl : t.lastAddr = s.lastAddr)
include hl

theorem codecCheck_congr (f : BitVec 2) (src dst : Window) : codecCheck t f src dst = codecCheck s f src dst := by
  have hi : ∀ a len, inMem t a len = inMem s a len := fun a len => by unfold inMem memBytes; rw [hl]
  simp only [codecCheck, hi, area_congr hc, hc]
theorem compressCheck_congr : compressCheck t = compressCheck s := by
  simp [compressCheck, codecCheck_congr hc hl, srcWindow_congr hc, dstWindow_congr hc]
theorem decompressCheck_congr : decompressCheck t = decompressCheck s := by
  simp [decompressCheck, codecCheck_congr hc hl, srcWindow_congr hc, dstWindow_congr hc]

end Congruence

/-! ### What the checks say -/

/-- `in_mem` (20_memory.md R46). -/
theorem inMem_iff (s : State) (a len : Nat) : inMem s a len = true ↔ a + len ≤ s.lastAddr.toNat + 1 :=
  decide_eq_true_iff

theorem overlap_false_iff (a la b lb : Nat) :
    overlap a la b lb = false ↔ ¬ (la > 0 ∧ lb > 0 ∧ a < b + lb ∧ b < a + la) := by
  simp only [overlap, Bool.and_eq_false_iff, decide_eq_false_iff_not]
  omega

/-- The checks of a codec command pass exactly when it accepts (60_exceptions.md R109). -/
theorem codecCheck_none_iff (s : State) (f : BitVec 2) (src dst : Window) :
    codecCheck s f src dst = none ↔ CodecAccepts s f src dst := by
  constructor
  · intro h
    unfold codecCheck at h
    split at h; · simp at h
    split at h; · simp at h
    split at h; · simp at h
    split at h; · simp at h
    split at h; · simp at h
    split at h; · simp at h
    rename_i h1 h2 h3 h4 h5 h6
    exact ⟨not_not.1 h1, by simpa [area, Nat.pos_iff_ne_zero] using h2, not_lt.1 h3,
      of_decide_eq_true (not_not.1 h4), of_decide_eq_true (not_not.1 h5),
      (overlap_false_iff _ _ _ _).1 (by simpa using h6)⟩
  · rintro ⟨h1, h2, h3, h4, h5, h6⟩
    have h6' := (overlap_false_iff _ _ _ _).2 h6
    have h2' : area s ≠ 0 := Nat.pos_iff_ne_zero.1 h2
    have h3' : ¬ area s > Config.areaMax := not_lt.2 h3
    simp [codecCheck, h1, h2', h3', inMem, memBytes, h4, h5, h6']

theorem compressCheck_none_iff (s : State) : compressCheck s = none ↔ CompressAccepts s :=
  codecCheck_none_iff _ _ _ _

theorem decompressCheck_none_iff (s : State) : decompressCheck s = none ↔ DecompressAccepts s :=
  codecCheck_none_iff _ _ _ _

theorem bitCheck_none_iff (s : State) : bitCheck s = none ↔ BitAccepts s := by
  constructor
  · intro h
    unfold bitCheck at h
    split at h; · simp at h
    split at h; · simp at h
    rename_i h1 h2
    exact ⟨of_decide_eq_true (not_not.1 h1), not_le.1 h2⟩
  · rintro ⟨h1, h2⟩
    have h1' : srcBase s + srcLen s ≤ memBytes s := h1
    have h2' : ¬ bitIndex s ≥ 8 * srcLen s := not_le.2 h2
    simp [bitCheck, inMem, h1', h2']

/-- A failing check names an error, never OK (60_exceptions.md R96). -/
theorem codecCheck_code {s : State} {f : BitVec 2} {src dst : Window} {c : ErrCode} {i : Word}
    (h : codecCheck s f src dst = some (c, i)) : c ≠ .ok := by
  unfold codecCheck at h
  repeat' split at h
  all_goals first | (cases h; done) | (cases h; decide)

theorem bitCheck_code {s : State} {c : ErrCode} {i : Word} (h : bitCheck s = some (c, i)) : c ≠ .ok := by
  unfold bitCheck at h
  repeat' split at h
  all_goals first | (cases h; done) | (cases h; decide)

/-- The readiness of a command in progress does not depend on the memory's contents or on the host. -/
theorem decoderReady_iff (s : State) (d : Decoder) : decoderReady s d = true ↔
    s.phase = .busy ∧ decodeCommand s.latchedCmd = .ok .decompress ∧ DecompressAccepts s ∧ d.k ≤ srcLen s ∧
      d.pos ≤ area s := by
  simp [decoderReady, decompressCheck_none_iff]

theorem encoderReady_iff (s : State) (e : Encoder) : encoderReady s e = true ↔
    s.phase = .busy ∧ decodeCommand s.latchedCmd = .ok .compress ∧ CompressAccepts s ∧ 1 ≤ e.i ∧ e.i ≤ area s ∧
      1 ≤ e.len ∧ e.len ≤ Config.maxRun ∧ e.count ≤ capacity s := by
  simp [encoderReady, compressCheck_none_iff]

theorem compressAccepts_congr {s t : State} (hc : t.cfg = s.cfg) (hl : t.lastAddr = s.lastAddr)
    (h : CompressAccepts s) : CompressAccepts t := by
  rw [← compressCheck_none_iff] at h ⊢
  exact (compressCheck_congr hc hl).trans h

theorem decompressAccepts_congr {s t : State} (hc : t.cfg = s.cfg) (hl : t.lastAddr = s.lastAddr)
    (h : DecompressAccepts s) : DecompressAccepts t := by
  rw [← decompressCheck_none_iff] at h ⊢
  exact (decompressCheck_congr hc hl).trans h

/-- The destination window of an accepted COMPRESS is in the memory (20_memory.md R47). -/
theorem compress_dstIn {s : State} (h : CompressAccepts s) : dstBase s + capacity s ≤ memBytes s := h.dstIn

/-- The destination window of an accepted DECOMPRESS is in the memory (20_memory.md R47). -/
theorem decompress_dstIn {s : State} (h : DecompressAccepts s) : dstBase s + packedLen s ≤ memBytes s := h.dstIn

/-- The windows of an accepted COMPRESS are disjoint (20_memory.md R48). -/
theorem compress_disjoint {s : State} (h : CompressAccepts s) : ¬ (packedLen s > 0 ∧ packedLen s - 1 > 0 ∧
    srcBase s < dstBase s + (packedLen s - 1) ∧ dstBase s < srcBase s + packedLen s) := h.disjoint

/-- The windows of an accepted DECOMPRESS are disjoint (20_memory.md R48). -/
theorem decompress_disjoint {s : State} (h : DecompressAccepts s) : ¬ (srcLen s > 0 ∧ packedLen s > 0 ∧
    srcBase s < dstBase s + packedLen s ∧ dstBase s < srcBase s + srcLen s) := h.disjoint

end Sys2Proof.Machine
end

