-- ==== Sys2Proof/Laws/Compress.lean ====
section
/-! SUPPORT. COMPRESS: the loop, action by action, writes the tokens of the segmentation, or aborts; what it leaves
unchanged. -/

namespace Sys2Proof.Machine

/-- The memory with the tokens of these runs from address `a` on. -/
def writeTokens (m : Memory) (a : Nat) : List (Bool × Nat) → Memory
  | [] => m
  | r :: rs => writeTokens (m.write a (tokenByte r.1 r.2)) (a + 1) rs

theorem writeTokens_wf {m : Memory} (hm : m.wf) (a : Nat) (rs : List (Bool × Nat)) : (writeTokens m a rs).wf := by
  induction rs generalizing m a with
  | nil => exact hm
  | cons r rs ih => exact ih (Memory.write_wf hm _ _) _

theorem writeTokens_bounded {m : Memory} {n a : Nat} (hm : m.boundedBy n) (rs : List (Bool × Nat))
    (h : a + rs.length ≤ n) : (writeTokens m a rs).boundedBy n := by
  induction rs generalizing m a with
  | nil => exact hm
  | cons r rs ih =>
    rw [List.length_cons] at h
    exact ih (Memory.write_bounded hm (by omega) _) (by omega)

theorem read_writeTokens_other (m : Memory) {a b : Nat} (rs : List (Bool × Nat))
    (h : b < a ∨ a + rs.length ≤ b) : (writeTokens m a rs).read b = m.read b := by
  induction rs generalizing m a with
  | nil => rfl
  | cons r rs ih =>
    rw [List.length_cons] at h
    rw [writeTokens, ih _ (by omega), Memory.read_write_other _ _ (by omega)]

theorem bytesAt_writeTokens {m : Memory} (hm : m.wf) (a : Nat) (rs : List (Bool × Nat)) :
    bytesAt (writeTokens m a rs) a rs.length = rs.map fun r => tokenByte r.1 r.2 := by
  induction rs generalizing m a with
  | nil => rfl
  | cons r rs ih =>
    have := ih (Memory.write_wf hm a (tokenByte r.1 r.2)) (a + 1)
    simp only [bytesAt, List.length_cons, List.range_succ_eq_map, List.map_cons, List.map_map, writeTokens] at this ⊢
    refine List.cons_eq_cons.2 ⟨?_, ?_⟩
    · rw [read_writeTokens_other _ _ (.inl (by omega))]
      exact Memory.read_write_self hm _ _
    · rw [← this]
      refine List.map_congr_left fun k _ => ?_
      simp only [Function.comp_apply, Nat.succ_eq_add_one]
      congr 1
      omega

/-! ### The segmentation -/

theorem runsFrom_length_pos (v : Bool) (len : Nat) (bits : List Bool) : 1 ≤ (runsFrom v len bits).length := by
  induction bits generalizing v len with
  | nil => simp [runsFrom]
  | cons b bits ih =>
    rw [runsFrom]
    split
    · exact ih _ _
    · simp

/-- The bits still to scan at position `i`. -/
def bitsFrom (s : State) (i k : Nat) : List Bool := (List.range' i k).map (s.mem.getBit (srcBase s))

theorem bitsFrom_congr {s t : State} (hc : t.cfg = s.cfg) (i k : Nat)
    (h : ∀ j, i ≤ j → j < i + k → t.mem.getBit (srcBase s) j = s.mem.getBit (srcBase s) j) :
    bitsFrom t i k = bitsFrom s i k := by
  simp only [bitsFrom, srcBase_congr hc]
  refine List.map_congr_left fun j hj => ?_
  rw [List.mem_range'_1] at hj
  exact h j hj.1 hj.2

/-- The pixel bits are the first one and the bits to scan from position 1 on. -/
theorem pixelBits_eq {s : State} (h : 0 < area s) :
    pixelBits s = s.mem.getBit (srcBase s) 0 :: bitsFrom s 1 (area s - 1) := by
  obtain ⟨n, hn⟩ : ∃ n, area s = n + 1 := ⟨area s - 1, by omega⟩
  show (List.range (area s)).map (s.mem.getBit (srcBase s)) = _
  rw [hn, Nat.add_sub_cancel, List.range_eq_range', List.range'_succ, List.map_cons, Nat.zero_add]
  rfl

/-- In an accepted COMPRESS a write to the destination window leaves the pixel bits as they were (20_memory.md R48). -/
theorem getBit_write_destination {s : State} (ha : CompressAccepts s) {k j : Nat} (hk : k < capacity s)
    (hj : j < area s) (v : Byte) :
    (s.mem.write (dstBase s + k) v).getBit (srcBase s) j = s.mem.getBit (srcBase s) j := by
  have hd := compress_disjoint ha
  have h1 := area_le_packedLen s
  rw [capacity_eq] at hk
  simp only [Memory.getBit]
  rw [Memory.read_write_other]
  intro h
  exact hd ⟨by omega, by omega, by omega, by omega⟩

/-! ### The loop -/

theorem encodeLoop_off {s : State} (h : s.seq = .off) (fuel : Nat) : encodeLoop fuel s = s := by
  cases fuel with
  | zero => rfl
  | succ n => simp [encodeLoop, h]

theorem encodeLoop_succ {s : State} {e : Encoder} (h : s.seq = .encoding e) (fuel : Nat) :
    encodeLoop (fuel + 1) s = encodeLoop fuel (encodeUnit s e) := by
  rw [encodeLoop, h]

/-- The end of a COMPRESS whose runs still to be emitted are `rs`, `count` tokens having been written: all of them where
they fit, else an abort (41_rle_encode.md R81). -/
def compressEnd (s : State) (count : Nat) (rs : List (Bool × Nat)) : State :=
  if count + rs.length ≤ capacity s then
    finishCompress { s with mem := writeTokens s.mem (dstBase s + count) rs } (count + rs.length)
  else
    raiseError
      (scramble { s with mem := writeTokens s.mem (dstBase s + count) (rs.take (capacity s - count)) } Window.none
        (dstBase s) (capacity s))
      .overflow (BitVec.ofNat 32 (capacity s))

theorem overflowAbort_eq_compressEnd {s : State} {e : Encoder} {rs : List (Bool × Nat)} (hc : e.count = capacity s)
    (hr : 1 ≤ rs.length) : overflowAbort s e = compressEnd s e.count rs := by
  rw [compressEnd, if_neg (by omega), hc, Nat.sub_self, List.take_zero, writeTokens, overflowAbort, hc]

theorem compressEnd_step (s : State) (q : Sequencer) (count : Nat) (r : Bool × Nat) (rs : List (Bool × Nat))
    (h : count < capacity s) :
    compressEnd { s with mem := s.mem.write (dstBase s + count) (tokenByte r.1 r.2), seq := q } (count + 1) rs =
      compressEnd s count (r :: rs) := by
  have hcap : capacity { s with mem := s.mem.write (dstBase s + count) (tokenByte r.1 r.2), seq := q } = capacity s := rfl
  obtain ⟨c, hc⟩ : ∃ c, capacity s - count = c + 1 := ⟨capacity s - count - 1, by omega⟩
  unfold compressEnd
  rw [hcap, List.length_cons, hc, List.take_succ_cons]
  have h1 : capacity s - (count + 1) = c := by omega
  rw [h1, show count + 1 + rs.length = count + (rs.length + 1) by omega]
  rfl

/-- The loop from scan position `i` on, with `k` bits left: it ends as the segmentation of those bits says
(41_rle_encode.md R83, R84). -/
theorem encodeLoop_eq_compressEnd (k : Nat) : ∀ (s : State) (e : Encoder), s.seq = .encoding e → CompressAccepts s →
    e.i + k = area s → e.count ≤ capacity s →
    encodeLoop (k + 1) s = compressEnd s e.count (runsFrom e.v e.len (bitsFrom s e.i k)) := by
  induction k with
  | zero =>
    intro s e hs ha hi hc
    rw [encodeLoop_succ hs, encodeLoop, encodeUnit, if_neg (by omega)]
    simp only [bitsFrom, List.range'_zero, List.map_nil, runsFrom]
    by_cases hf : e.count + 1 > capacity s
    · rw [emit, if_pos hf]
      exact overflowAbort_eq_compressEnd (by omega) (by simp)
    · rw [emit, if_neg hf, compressEnd, if_pos (by simp; omega)]
      rfl
  | succ k ih =>
    intro s e hs ha hi hc
    have hlt : e.i < area s := by omega
    have hbits : bitsFrom s e.i (k + 1) = s.mem.getBit (srcBase s) e.i :: bitsFrom s (e.i + 1) k := by
      simp [bitsFrom, List.range'_succ]
    rw [encodeLoop_succ hs, encodeUnit, if_pos hlt, hbits, runsFrom]
    by_cases hb : s.mem.getBit (srcBase s) e.i = e.v ∧ e.len < 128
    · rw [if_pos hb, if_pos (show _ ∧ e.len < Config.maxRun from hb)]
      exact ih { s with seq := .encoding { e with i := e.i + 1, len := e.len + 1 } }
        { e with i := e.i + 1, len := e.len + 1 } rfl (compressAccepts_congr (s := s) rfl rfl ha)
        (by show e.i + 1 + k = area s; omega) hc
    · rw [if_neg hb, if_neg (show ¬ (_ ∧ e.len < Config.maxRun) from hb)]
      by_cases hf : e.count + 1 > capacity s
      · rw [emit, if_pos hf, encodeLoop_off rfl]
        exact overflowAbort_eq_compressEnd (by omega) (by simp)
      · rw [emit, if_neg hf]
        have hbits' : ∀ t : State, t.cfg = s.cfg → t.mem = s.mem.write (dstBase s + e.count) (tokenByte e.v e.len) →
            bitsFrom t (e.i + 1) k = bitsFrom s (e.i + 1) k := fun t hc' ht =>
          bitsFrom_congr hc' _ _ fun j h1 h2 => ht ▸ getBit_write_destination ha (by omega) (by omega) _
        have h := ih
          { s with
            mem := s.mem.write (dstBase s + e.count) (tokenByte e.v e.len)
            seq := .encoding { i := e.i + 1, v := s.mem.getBit (srcBase s) e.i, len := 1, count := e.count + 1 } }
          { i := e.i + 1, v := s.mem.getBit (srcBase s) e.i, len := 1, count := e.count + 1 } rfl
          (compressAccepts_congr (s := s) rfl rfl ha) (by show e.i + 1 + k = area s; omega)
          (by show e.count + 1 ≤ capacity s; omega)
        dsimp only at h
        rw [compressEnd_step s _ e.count (e.v, e.len) _ (by omega), hbits'
          { s with
            mem := s.mem.write (dstBase s + e.count) (tokenByte e.v e.len)
            seq := .encoding { i := e.i + 1, v := s.mem.getBit (srcBase s) e.i, len := 1, count := e.count + 1 } }
          rfl rfl] at h
        exact h

/-- COMPRESS, where its checks pass: it ends as the segmentation of the pixel bits says. -/
theorem execCompress_eq {s : State} (ha : CompressAccepts s) :
    exec .compress s = .next (compressEnd s 0 (runsOf (pixelBits s))) := by
  have hpos : 0 < area s := ha.areaPos
  obtain ⟨n, hn⟩ : ∃ n, area s = n + 1 := ⟨area s - 1, by omega⟩
  show Host.Outcome.next (encodeLoop (area s) (startCompress s)) = _
  rw [startCompress, (compressCheck_none_iff s).2 ha, hn]
  have h := encodeLoop_eq_compressEnd n
    { s with seq := .encoding { i := 1, v := s.mem.getBit (srcBase s) 0, len := 1, count := 0 } }
    { i := 1, v := s.mem.getBit (srcBase s) 0, len := 1, count := 0 } rfl
    (compressAccepts_congr (s := s) rfl rfl ha) (by show 1 + n = area s; omega) (Nat.zero_le _)
  rw [pixelBits_eq hpos, runsOf, hn, Nat.add_sub_cancel]
  exact congrArg _ h

/-- COMPRESS, where a check fails. -/
theorem execCompress_error {s : State} {c : ErrCode} {i : Word} (h : compressCheck s = some (c, i)) :
    exec .compress s = .next (raiseError s c i) := by
  show Host.Outcome.next (encodeLoop (area s) (startCompress s)) = _
  rw [startCompress, h]
  simp only
  rw [encodeLoop_off rfl]

/-! ### The frame of the end -/

theorem compressEnd_frame (s : State) (count : Nat) (rs : List (Bool × Nat)) :
    (compressEnd s count rs).cfg = s.cfg ∧ (compressEnd s count rs).latchedCmd = s.latchedCmd ∧
    (compressEnd s count rs).lastAddr = s.lastAddr ∧ (compressEnd s count rs).resetIn = s.resetIn ∧
    (compressEnd s count rs).turns = s.turns ∧ (compressEnd s count rs).program = s.program ∧
    (compressEnd s count rs).seen = s.seen ∧ (compressEnd s count rs).phase = .idle ∧
    (compressEnd s count rs).done = true ∧ (compressEnd s count rs).seq = .off := by
  unfold compressEnd
  split <;> exact ⟨rfl, rfl, rfl, rfl, rfl, rfl, rfl, rfl, rfl, rfl⟩

theorem compressEnd_sameOutside (s : State) {count : Nat} (hc : count ≤ capacity s) (rs : List (Bool × Nat)) :
    SameOutside (dstWindow s .compress) s.mem (compressEnd s count rs).mem := by
  intro a ha
  have ha' : a < dstBase s ∨ dstBase s + capacity s ≤ a := by
    simp only [dstWindow, Window.contains] at ha
    omega
  unfold compressEnd
  split
  · show (writeTokens _ _ _).read a = _
    exact read_writeTokens_other _ _ (by omega)
  · show (Memory.scramble _ _ _ _ _).read a = _
    rw [Memory.read_scramble_other _ _ _ (by omega)]
    exact read_writeTokens_other _ _ (by rw [List.length_take]; omega)

end Sys2Proof.Machine
end

