-- ==== Sys2Proof/Laws/Decompress.lean ====
section
/-! SUPPORT. DECOMPRESS: the loop, token by token, writes the expansion of the stream, or ends in a length error; what it
leaves unchanged. -/

namespace Sys2Proof.Machine

/-! ### Tokens -/

theorem low_seven_bits : ∀ tok : Byte, (tok.extractLsb' 0 7).toNat = (tok &&& 0x7F#8).toNat := by decide

/-- The token's bits are those the decoder appends (30_encoding.md R62, 42_rle_decode.md R88). -/
theorem tokenBits_eq (tok : Byte) : tokenBits tok = List.replicate (tokenLength tok) (tokenValue tok) := by
  rw [tokenBits, tokenLength, tokenValue, low_seven_bits]

@[simp] theorem tokenBits_length (tok : Byte) : (tokenBits tok).length = tokenLength tok := by
  rw [tokenBits_eq, List.length_replicate]

@[simp] theorem expand_nil : expand [] = [] := rfl

@[simp] theorem expand_cons (tok : Byte) (toks : List Byte) : expand (tok :: toks) = tokenBits tok ++ expand toks := rfl

theorem expand_append (a b : List Byte) : expand (a ++ b) = expand a ++ expand b := List.flatMap_append

theorem tokenLength_pos (tok : Byte) : 1 ≤ tokenLength tok := Nat.le_add_left _ _

/-! ### The memory after some tokens -/

/-- The memory with the runs of these tokens from stream bit `pos` on (42_rle_decode.md R89). -/
def writeRuns (m : Memory) (base pos : Nat) : List Byte → Memory
  | [] => m
  | t :: ts => writeRuns (m.setBits base pos (tokenLength t) (tokenValue t)) base (pos + tokenLength t) ts

theorem writeRuns_wf {m : Memory} (hm : m.wf) (base pos : Nat) (ts : List Byte) : (writeRuns m base pos ts).wf := by
  induction ts generalizing m pos with
  | nil => exact hm
  | cons t ts ih => exact ih (Memory.setBits_wf hm _ _ _ _) _

theorem read_writeRuns_other (m : Memory) {base pos a : Nat} (ts : List Byte)
    (h : ∀ j, pos ≤ j → j < pos + (expand ts).length → a ≠ base + j / 8) :
    (writeRuns m base pos ts).read a = m.read a := by
  induction ts generalizing m pos with
  | nil => rfl
  | cons t ts ih =>
    simp only [expand_cons, List.length_append, tokenBits_length] at h
    rw [writeRuns, ih _ fun j h1 h2 => h j (by omega) (by omega),
      Memory.read_setBits_other _ _ fun j h1 h2 => h j (by omega) (by omega)]

theorem writeRuns_bounded {m : Memory} {n base pos : Nat} (hm : m.boundedBy n) (ts : List Byte)
    (h : ∀ j, pos ≤ j → j < pos + (expand ts).length → base + j / 8 < n) : (writeRuns m base pos ts).boundedBy n := by
  induction ts generalizing m pos with
  | nil => exact hm
  | cons t ts ih =>
    simp only [expand_cons, List.length_append, tokenBits_length] at h
    exact ih (Memory.setBits_bounded hm _ fun j h1 h2 => h j (by omega) (by omega))
      fun j h1 h2 => h j (by omega) (by omega)

/-- Stream bit j after the runs: the expansion's bit, or what it was. -/
theorem getBit_writeRuns {m : Memory} (hm : m.wf) (base pos j : Nat) (ts : List Byte) :
    (writeRuns m base pos ts).getBit base j =
      if pos ≤ j ∧ j < pos + (expand ts).length then (expand ts).getD (j - pos) false else m.getBit base j := by
  induction ts generalizing m pos with
  | nil => rw [writeRuns, if_neg (by simp)]
  | cons t ts ih =>
    rw [writeRuns, ih (Memory.setBits_wf hm _ _ _ _), Memory.getBit_setBits hm]
    simp only [expand_cons, List.length_append, tokenBits_length]
    by_cases h1 : pos + tokenLength t ≤ j ∧ j < pos + tokenLength t + (expand ts).length
    · rw [if_pos h1, if_pos (by omega), List.getD_append_right _ _ _ _ (by rw [tokenBits_length]; omega),
        tokenBits_length]
      congr 1
      omega
    · rw [if_neg h1]
      by_cases h2 : pos ≤ j ∧ j < pos + tokenLength t
      · rw [if_pos h2, if_pos (by omega), List.getD_append _ _ _ _ (by rw [tokenBits_length]; omega), tokenBits_eq,
          List.getD_eq_getElem _ _ (by rw [List.length_replicate]; omega), List.getElem_replicate]
      · rw [if_neg h2, if_neg (by omega)]

/-! ### The loop -/

theorem decodeLoop_off {s : State} (h : s.seq = .off) (fuel : Nat) : decodeLoop fuel s = s := by
  cases fuel with
  | zero => rfl
  | succ n => simp [decodeLoop, h]

theorem decodeLoop_succ {s : State} {d : Decoder} (h : s.seq = .decoding d) (fuel : Nat) :
    decodeLoop (fuel + 1) s = decodeLoop fuel (decodeUnit s d) := by
  rw [decodeLoop, h]

/-- The end of a DECOMPRESS whose tokens still to be read are the given ones. -/
def decompressEnd (s : State) (d : Decoder) : List Byte → State
  | [] => finishDecompress s d
  | t :: ts =>
    if d.pos + tokenLength t > area s then lengthError s .overrun d.k
    else
      decompressEnd { s with mem := s.mem.setBits (dstBase s) d.pos (tokenLength t) (tokenValue t) }
        { k := d.k + 1, pos := d.pos + tokenLength t } ts

/-- The hidden state left in the record does not matter to the end. -/
theorem decompressEnd_seq (s : State) (q : Sequencer) (d : Decoder) (ts : List Byte) :
    decompressEnd { s with seq := q } d ts = decompressEnd s d ts := by
  induction ts generalizing s d with
  | nil =>
    simp only [decompressEnd, finishDecompress]
    rfl
  | cons t ts ih =>
    simp only [decompressEnd]
    refine if_congr Iff.rfl rfl ?_
    exact ih { s with mem := s.mem.setBits (dstBase s) d.pos (tokenLength t) (tokenValue t) } _

/-- The tokens from index `k` on. -/
def tokensFrom (s : State) (k c : Nat) : List Byte := (List.range' k c).map (fetchToken s)

theorem tokensFrom_congr {s t : State} (k c : Nat)
    (h : ∀ j, k ≤ j → j < k + c → fetchToken t j = fetchToken s j) : tokensFrom t k c = tokensFrom s k c := by
  refine List.map_congr_left fun j hj => ?_
  rw [List.mem_range'_1] at hj
  exact h j hj.1 hj.2

theorem tokensFrom_zero (s : State) : tokensFrom s 0 (srcLen s) = sourceTokens s := by
  rw [tokensFrom, ← List.range_eq_range']
  rfl

/-- In an accepted DECOMPRESS a run written inside the image leaves the tokens as they were (20_memory.md R48). -/
theorem fetchToken_setBits_destination {s t : State} (ha : DecompressAccepts s) {pos len k : Nat} (v : Bool)
    (hp : pos + len ≤ area s) (hk : k < srcLen s) (hc : t.cfg = s.cfg)
    (ht : t.mem = s.mem.setBits (dstBase s) pos len v) : fetchToken t k = fetchToken s k := by
  have hd := decompress_disjoint ha
  have h1 := area_le_packedLen s
  rw [fetchToken, fetchToken, srcBase_congr hc, ht, Memory.read_setBits_other]
  intro j h2 h3 h4
  exact hd ⟨by omega, by omega, by omega, by omega⟩

/-- The loop with `c` tokens left ends as those tokens say (42_rle_decode.md R87). -/
theorem decodeLoop_eq_decompressEnd (c : Nat) : ∀ (s : State) (d : Decoder), s.seq = .decoding d →
    DecompressAccepts s → d.k + c = srcLen s →
    decodeLoop (c + 1) s = decompressEnd s d (tokensFrom s d.k c) := by
  induction c with
  | zero =>
    intro s d hs ha hk
    rw [decodeLoop_succ hs, decodeLoop, decodeUnit, if_neg (by omega)]
    rfl
  | succ c ih =>
    intro s d hs ha hk
    have hlt : d.k < srcLen s := by omega
    have htoks : tokensFrom s d.k (c + 1) = fetchToken s d.k :: tokensFrom s (d.k + 1) c := by
      simp [tokensFrom, List.range'_succ]
    rw [decodeLoop_succ hs, decodeUnit, if_pos hlt, htoks, decompressEnd, runToken]
    split
    · exact decodeLoop_off rfl _
    · next hf =>
      generalize htok : fetchToken s d.k = tok at hf ⊢
      have h := ih
        { s with
          mem := s.mem.setBits (dstBase s) d.pos (tokenLength tok) (tokenValue tok)
          seq := .decoding { k := d.k + 1, pos := d.pos + tokenLength tok } }
        { k := d.k + 1, pos := d.pos + tokenLength tok } rfl
        (decompressAccepts_congr (s := s) rfl rfl ha) (by show d.k + 1 + c = srcLen s; omega)
      dsimp only at h
      rw [h, decompressEnd_seq { s with mem := s.mem.setBits (dstBase s) d.pos (tokenLength tok) (tokenValue tok) },
        tokensFrom_congr (s := s)]
      intro j h1 h2
      exact fetchToken_setBits_destination ha _ (by omega) (by omega) rfl rfl

/-- DECOMPRESS, where its checks pass. -/
theorem execDecompress_eq {s : State} (ha : DecompressAccepts s) :
    exec .decompress s = .next (decompressEnd s { k := 0, pos := 0 } (sourceTokens s)) := by
  show Host.Outcome.next (decodeLoop (srcLen s + 1) (startDecompress s)) = _
  rw [startDecompress, (decompressCheck_none_iff s).2 ha]
  have h := decodeLoop_eq_decompressEnd (srcLen s) { s with seq := .decoding { k := 0, pos := 0 } } { k := 0, pos := 0 }
    rfl (decompressAccepts_congr (s := s) rfl rfl ha) (Nat.zero_add _)
  dsimp only at h ⊢
  rw [h, decompressEnd_seq, ← tokensFrom_zero]
  rfl

/-- DECOMPRESS, where a check fails. -/
theorem execDecompress_error {s : State} {c : ErrCode} {i : Word} (h : decompressCheck s = some (c, i)) :
    exec .decompress s = .next (raiseError s c i) := by
  show Host.Outcome.next (decodeLoop (srcLen s + 1) (startDecompress s)) = _
  rw [startDecompress, h]
  dsimp only
  rw [decodeLoop_off rfl]

/-! ### What the end is -/

/-- The tokens fit: the command ends with their runs written. -/
theorem decompressEnd_fits (s : State) (d : Decoder) (ts : List Byte) (h : d.pos + (expand ts).length ≤ area s) :
    decompressEnd s d ts = finishDecompress { s with mem := writeRuns s.mem (dstBase s) d.pos ts }
      { k := d.k + ts.length, pos := d.pos + (expand ts).length } := by
  induction ts generalizing s d with
  | nil => rfl
  | cons t ts ih =>
    simp only [expand_cons, List.length_append, tokenBits_length] at h
    rw [decompressEnd, if_neg (by omega), ih _ _ (by show d.pos + tokenLength t + _ ≤ area s; omega)]
    simp only [expand_cons, List.length_append, tokenBits_length, List.length_cons, Nat.add_assoc, Nat.add_comm 1]
    rfl

/-- Token `pre.length` is the first that passes the last pixel: the command ends in ERR_OVERRUN there. -/
theorem decompressEnd_overrun (s : State) (d : Decoder) (pre post : List Byte) (t : Byte)
    (h1 : d.pos + (expand pre).length ≤ area s) (h2 : area s < d.pos + (expand pre).length + tokenLength t) :
    decompressEnd s d (pre ++ t :: post) =
      lengthError { s with mem := writeRuns s.mem (dstBase s) d.pos pre } .overrun (d.k + pre.length) := by
  induction pre generalizing s d with
  | nil =>
    rw [List.nil_append, decompressEnd, if_pos (by simpa using h2)]
    rfl
  | cons p pre ih =>
    simp only [expand_cons, List.length_append, tokenBits_length] at h1 h2
    rw [List.cons_append, decompressEnd, if_neg (by omega), ih _ _ (by show d.pos + tokenLength p + _ ≤ area s; omega)
      (by show area s < d.pos + tokenLength p + _ + _; omega)]
    simp only [List.length_cons, Nat.add_assoc, Nat.add_comm 1]
    rfl

/-- Either the tokens fit, or there is a first one that does not. -/
theorem fits_or_first_overrun (n pos : Nat) (ts : List Byte) (hp : pos ≤ n) :
    pos + (expand ts).length ≤ n ∨ ∃ pre t post, ts = pre ++ t :: post ∧ pos + (expand pre).length ≤ n ∧
      n < pos + (expand pre).length + tokenLength t := by
  induction ts generalizing pos with
  | nil => exact .inl (by simpa using hp)
  | cons t ts ih =>
    by_cases h : pos + tokenLength t ≤ n
    · rcases ih (pos + tokenLength t) h with h' | ⟨pre, u, post, rfl, h1, h2⟩
      · exact .inl (by simp only [expand_cons, List.length_append, tokenBits_length]; omega)
      · refine .inr ⟨t :: pre, u, post, rfl, ?_, ?_⟩ <;>
          simp only [expand_cons, List.length_append, tokenBits_length] <;> omega
    · exact .inr ⟨[], t, ts, rfl, by simpa using hp, by simp; omega⟩

/-! ### The frame of the end -/

theorem finishDecompress_frame (s : State) (d : Decoder) :
    (finishDecompress s d).cfg = s.cfg ∧ (finishDecompress s d).latchedCmd = s.latchedCmd ∧
    (finishDecompress s d).lastAddr = s.lastAddr ∧ (finishDecompress s d).resetIn = s.resetIn ∧
    (finishDecompress s d).turns = s.turns ∧ (finishDecompress s d).program = s.program ∧
    (finishDecompress s d).seen = s.seen ∧ (finishDecompress s d).phase = .idle ∧
    (finishDecompress s d).done = true ∧ (finishDecompress s d).seq = .off := by
  unfold finishDecompress
  split <;> exact ⟨rfl, rfl, rfl, rfl, rfl, rfl, rfl, rfl, rfl, rfl⟩

theorem decompressEnd_frame (s : State) (d : Decoder) (ts : List Byte) :
    (decompressEnd s d ts).cfg = s.cfg ∧ (decompressEnd s d ts).latchedCmd = s.latchedCmd ∧
    (decompressEnd s d ts).lastAddr = s.lastAddr ∧ (decompressEnd s d ts).resetIn = s.resetIn ∧
    (decompressEnd s d ts).turns = s.turns ∧ (decompressEnd s d ts).program = s.program ∧
    (decompressEnd s d ts).seen = s.seen ∧ (decompressEnd s d ts).phase = .idle ∧
    (decompressEnd s d ts).done = true ∧ (decompressEnd s d ts).seq = .off := by
  induction ts generalizing s d with
  | nil => exact finishDecompress_frame s d
  | cons t ts ih =>
    rw [decompressEnd]
    split
    · exact ⟨rfl, rfl, rfl, rfl, rfl, rfl, rfl, rfl, rfl, rfl⟩
    · exact ih { s with mem := s.mem.setBits (dstBase s) d.pos (tokenLength t) (tokenValue t) } _

/-- A byte outside `[DST_ADDR, DST_ADDR + P)` holds none of the image's 8 P bits. -/
theorem outside_destination {s : State} {a : Nat} (ha : ¬ (dstWindow s .decompress).contains a) {j : Nat}
    (hj : j < 8 * packedLen s) : a ≠ dstBase s + j / 8 := by
  rintro rfl
  exact ha ⟨Nat.le_add_right _ _, by show dstBase s + j / 8 < dstBase s + packedLen s; omega⟩

theorem lengthError_sameOutside (s : State) (c : ErrCode) (i : Nat) :
    SameOutside (dstWindow s .decompress) s.mem (lengthError s c i).mem := by
  intro a ha
  refine Memory.read_scramble_other _ _ _ (.inr ?_)
  have : ¬ (dstBase s ≤ a ∧ a < dstBase s + packedSize s) := ha
  omega

theorem finishDecompress_sameOutside (s : State) (d : Decoder) :
    SameOutside (dstWindow s .decompress) s.mem (finishDecompress s d).mem := by
  unfold finishDecompress
  split
  · exact lengthError_sameOutside _ _ _
  · intro a ha
    refine Memory.read_setBits_other _ _ fun j h1 h2 => outside_destination ha ?_
    have := area_le_packedLen s
    rw [packedSize_eq] at h2
    omega

theorem SameOutside.trans {w : Window} {a b c : Memory} (h1 : SameOutside w a b) (h2 : SameOutside w b c) :
    SameOutside w a c := fun x hx => (h2 x hx).trans (h1 x hx)

theorem setBits_sameOutside (s : State) {pos len : Nat} (v : Bool) (h : pos + len ≤ area s) :
    SameOutside (dstWindow s .decompress) s.mem (s.mem.setBits (dstBase s) pos len v) := by
  intro a ha
  refine Memory.read_setBits_other _ _ fun j h1 h2 => outside_destination ha ?_
  have := area_le_packedLen s
  omega

theorem decompressEnd_sameOutside (s : State) (d : Decoder) (ts : List Byte) :
    SameOutside (dstWindow s .decompress) s.mem (decompressEnd s d ts).mem := by
  induction ts generalizing s d with
  | nil => exact finishDecompress_sameOutside s d
  | cons t ts ih =>
    rw [decompressEnd]
    split
    · exact lengthError_sameOutside _ _ _
    · exact (setBits_sameOutside s _ (by omega)).trans
        (ih { s with mem := s.mem.setBits (dstBase s) d.pos (tokenLength t) (tokenValue t) } _)

end Sys2Proof.Machine
end

