-- ==== Sys2Proof/Laws/Exec.lean ====
section
/-! SUPPORT. What a core's move can do, said once: the inversion of exec, of the resumption of a command in progress and of
an internal action, and what each of their ends keeps. -/

namespace Sys2Proof.Machine

theorem Window.none_contains (a : Nat) : ¬ Window.none.contains a := by
  rintro ⟨-, h⟩
  simp [Window.none] at h

/-! ### exec -/

/-- A run token inside a DECOMPRESS in progress with a token left (42_rle_decode.md R88). -/
theorem execToken_ready (v : Bool) (len : Nat) {s : State} {d : Decoder} (hs : s.seq = .decoding d)
    (hr : decoderReady s d = true) (hk : d.k < srcLen s) : execToken v len s = .next (runToken v len s d) := by
  simp [execToken, hs, hr, hk]

theorem execToken_next {v : Bool} {len : Nat} {s t : State} (h : execToken v len s = .next t) :
    ∃ d, s.seq = .decoding d ∧ decoderReady s d = true ∧ d.k < srcLen s ∧ t = runToken v len s d := by
  unfold execToken at h
  split at h
  · next d hs =>
    split at h
    · next hr =>
      cases h
      exact ⟨d, hs, hr.1, hr.2, rfl⟩
    · cases h
  · cases h
  · cases h

/-- Both token instructions are the one meaning of a token. -/
theorem exec_token (v : Bool) (len : Nat) (s : State) :
    exec (if v then .run1 len else .run0 len) s = execToken v len s := by cases v <;> rfl

/-- GET_BIT, where its checks pass (40_bit_array.md R73). -/
theorem execGetBit_eq {s : State} (h : BitAccepts s) : exec .getBit s = .next (completeOk { s with
    out := { s.out with
      result := (BitVec.ofBool (s.mem.getBit (srcBase s) (bitIndex s))).setWidth 32 } }) := by
  simp only [exec, execGetBit, (bitCheck_none_iff s).2 h]

/-- SET_BIT, where its checks pass (40_bit_array.md R74). -/
theorem execSetBit_eq {s : State} (h : BitAccepts s) : exec .setBit s = .next (completeOk { s with
    mem := s.mem.setBit (srcBase s) (bitIndex s) (bitValue s) }) := by
  simp only [exec, execSetBit, (bitCheck_none_iff s).2 h]

/-- Everything an instruction can do when it answers a next state. -/
theorem exec_cases {i : Instr} {s t : State} (h : exec i s = .next t) :
    (∃ c info, c ≠ .ok ∧ t = raiseError s c info) ∨
    (i = .getBit ∧ BitAccepts s ∧ ∃ r, t = completeOk { s with out := { s.out with result := r } }) ∨
    (i = .setBit ∧ BitAccepts s ∧
      t = completeOk { s with mem := s.mem.setBit (srcBase s) (bitIndex s) (bitValue s) }) ∨
    (i = .packedBytes ∧ ∃ r, t = completeOk { s with out := { s.out with result := r } }) ∨
    (i = .compress ∧ CompressAccepts s ∧ t = compressEnd s 0 (runsOf (pixelBits s))) ∨
    (i = .decompress ∧ DecompressAccepts s ∧ t = decompressEnd s { k := 0, pos := 0 } (sourceTokens s)) ∨
    (∃ v len d, i = (if v then .run1 len else .run0 len) ∧ s.seq = .decoding d ∧ decoderReady s d = true ∧
      d.k < srcLen s ∧ t = runToken v len s d) := by
  cases i with
  | getBit =>
    simp only [exec, execGetBit] at h
    split at h
    · next c => cases h; exact .inl ⟨_, _, bitCheck_code c, rfl⟩
    · next c => cases h; exact .inr (.inl ⟨rfl, (bitCheck_none_iff _).1 c, _, rfl⟩)
  | setBit =>
    simp only [exec, execSetBit] at h
    split at h
    · next c => cases h; exact .inl ⟨_, _, bitCheck_code c, rfl⟩
    · next c => cases h; exact .inr (.inr (.inl ⟨rfl, (bitCheck_none_iff _).1 c, rfl⟩))
  | packedBytes =>
    simp only [exec, execPackedBytes] at h
    split at h
    · cases h; exact .inl ⟨_, _, by decide, rfl⟩
    · cases h; exact .inr (.inr (.inr (.inl ⟨rfl, _, rfl⟩)))
  | compress =>
    cases hc : compressCheck s with
    | none =>
      have ha := (compressCheck_none_iff s).1 hc
      rw [execCompress_eq ha] at h
      cases h
      exact .inr (.inr (.inr (.inr (.inl ⟨rfl, ha, rfl⟩))))
    | some p =>
      rw [execCompress_error hc] at h
      cases h
      exact .inl ⟨_, _, codecCheck_code hc, rfl⟩
  | decompress =>
    cases hc : decompressCheck s with
    | none =>
      have ha := (decompressCheck_none_iff s).1 hc
      rw [execDecompress_eq ha] at h
      cases h
      exact .inr (.inr (.inr (.inr (.inr (.inl ⟨rfl, ha, rfl⟩)))))
    | some p =>
      rw [execDecompress_error hc] at h
      cases h
      exact .inl ⟨_, _, codecCheck_code hc, rfl⟩
  | run0 len =>
    obtain ⟨d, h1⟩ := execToken_next (v := false) h
    exact .inr (.inr (.inr (.inr (.inr (.inr ⟨false, len, d, rfl, h1⟩)))))
  | run1 len =>
    obtain ⟨d, h1⟩ := execToken_next (v := true) h
    exact .inr (.inr (.inr (.inr (.inr (.inr ⟨true, len, d, rfl, h1⟩)))))

/-- A command other than a token always completes: it answers a next state. -/
theorem exec_command_next {i : Instr} {w : Word} (hi : decodeCommand w = .ok i) (s : State) :
    ∃ t, exec i s = .next t := by
  unfold decodeCommand at hi
  repeat' split at hi
  all_goals first
    | (cases hi; done)
    | (cases hi; simp only [exec, execGetBit]; split <;> exact ⟨_, rfl⟩)
    | (cases hi; simp only [exec, execSetBit]; split <;> exact ⟨_, rfl⟩)
    | (cases hi; simp only [exec, execPackedBytes]; split <;> exact ⟨_, rfl⟩)
    | (cases hi; exact ⟨_, rfl⟩)

/-! ### What remains of a command in progress -/

/-- What is left of a COMPRESS in progress, as one step. -/
theorem resumeCompress_eq {s : State} {e : Encoder} (hs : s.seq = .encoding e) (hr : encoderReady s e = true) :
    resumeCompress s e =
      .next (compressEnd s e.count (runsFrom e.v e.len (bitsFrom s e.i (area s - e.i)))) := by
  obtain ⟨-, -, ha, -, hi, -, -, hc⟩ := (encoderReady_iff s e).1 hr
  rw [resumeCompress, if_pos hr, encodeLoop_eq_compressEnd _ s e hs ha (by omega) hc]

/-- What is left of a DECOMPRESS in progress, as one step. -/
theorem resumeDecompress_eq {s : State} {d : Decoder} (hs : s.seq = .decoding d) (hr : decoderReady s d = true) :
    resumeDecompress s d = .next (decompressEnd s d (tokensFrom s d.k (srcLen s - d.k))) := by
  obtain ⟨-, -, ha, hk, -⟩ := (decoderReady_iff s d).1 hr
  rw [resumeDecompress, if_pos hr, decodeLoop_eq_decompressEnd _ s d hs ha (by omega)]

/-! ### One internal action -/

/-- Everything one internal action of a COMPRESS in progress can do: count one more bit of the run, or write the run's
token and start the next run, or write the closing token, or abort. -/
theorem encodeUnit_cases (s : State) (e : Encoder) :
    (e.i < area s ∧ e.len < Config.maxRun ∧
      encodeUnit s e = { s with seq := .encoding { e with i := e.i + 1, len := e.len + 1 } }) ∨
    (e.i < area s ∧ e.count < capacity s ∧
      encodeUnit s e = { s with
        mem := s.mem.write (dstBase s + e.count) (tokenByte e.v e.len)
        seq := .encoding { i := e.i + 1, v := s.mem.getBit (srcBase s) e.i, len := 1, count := e.count + 1 } }) ∨
    (¬ e.i < area s ∧ e.count < capacity s ∧
      encodeUnit s e =
        finishCompress { s with mem := s.mem.write (dstBase s + e.count) (tokenByte e.v e.len) } (e.count + 1)) ∨
    (capacity s ≤ e.count ∧ encodeUnit s e = overflowAbort s e) := by
  have hemit : ∀ m, emit s e = some m →
      e.count < capacity s ∧ m = s.mem.write (dstBase s + e.count) (tokenByte e.v e.len) := by
    intro m h
    unfold emit at h
    split at h
    · cases h
    · cases h; exact ⟨by omega, rfl⟩
  have hnone : emit s e = none → capacity s ≤ e.count := by
    intro h
    unfold emit at h
    split at h
    · omega
    · cases h
  unfold encodeUnit
  split
  · next hi =>
    dsimp only
    split
    · next hb => exact .inl ⟨hi, hb.2, rfl⟩
    · split
      · next h => exact .inr (.inr (.inr ⟨hnone h, rfl⟩))
      · next m h =>
        obtain ⟨h1, rfl⟩ := hemit m h
        exact .inr (.inl ⟨hi, h1, rfl⟩)
  · next hi =>
    split
    · next h => exact .inr (.inr (.inr ⟨hnone h, rfl⟩))
    · next m h =>
      obtain ⟨h1, rfl⟩ := hemit m h
      exact .inr (.inr (.inl ⟨hi, h1, rfl⟩))

/-! ### The core's move, by what is in progress -/

theorem coreStep_off {s : State} (hb : s.phase = .busy) (hs : s.seq = .off) : coreStep s = runLatched s := by
  rw [coreStep, hb, hs]

theorem coreStep_encoding {s : State} {e : Encoder} (hs : s.seq = .encoding e) (hr : encoderReady s e = true) :
    coreStep s = .next (encodeLoop (area s - e.i + 1) s) := by
  rw [coreStep, ((encoderReady_iff s e).1 hr).1, hs]
  exact if_pos hr

theorem coreStep_decoding {s : State} {d : Decoder} (hs : s.seq = .decoding d) (hr : decoderReady s d = true) :
    coreStep s = .next (decodeLoop (srcLen s - d.k + 1) s) := by
  rw [coreStep, ((decoderReady_iff s d).1 hr).1, hs]
  exact if_pos hr

theorem coreUnit_off {s : State} (hb : s.phase = .busy) (hs : s.seq = .off) : coreUnit s = beginLatched s := by
  rw [coreUnit, hb, hs]

theorem coreUnit_encoding {s : State} {e : Encoder} (hs : s.seq = .encoding e) (hr : encoderReady s e = true) :
    coreUnit s = .next (encodeUnit s e) := by
  rw [coreUnit, ((encoderReady_iff s e).1 hr).1, hs]
  exact if_pos hr

theorem coreUnit_decoding {s : State} {d : Decoder} (hs : s.seq = .decoding d) (hr : decoderReady s d = true) :
    coreUnit s = .next (decodeUnit s d) := by
  rw [coreUnit, ((decoderReady_iff s d).1 hr).1, hs]
  show unitDecompress s d = _
  unfold unitDecompress decodeUnit
  split
  · next hk =>
    unfold decodeToken
    split
    · next hv => rw [hv]; exact execToken_ready true _ hs hr hk
    · next hv => rw [Bool.not_eq_true] at hv; rw [hv]; exact execToken_ready false _ hs hr hk
  · rfl

/-- The start of a COMPRESS is a COMPRESS in progress, or its end (41_rle_encode.md R79). -/
theorem startCompress_cases {s : State} (hb : s.phase = .busy) (hd : decodeCommand s.latchedCmd = .ok .compress) :
    (∃ e, (startCompress s).seq = .encoding e ∧ encoderReady (startCompress s) e = true ∧ e.i = 1 ∧
      0 < area s ∧ (startCompress s).cfg = s.cfg) ∨
    ((startCompress s).phase = .idle ∧ (startCompress s).seq = .off) := by
  unfold startCompress
  cases hc : compressCheck s with
  | some p => exact .inr ⟨rfl, rfl⟩
  | none =>
    have ha := (compressCheck_none_iff s).1 hc
    refine .inl ⟨_, rfl, ?_, rfl, ha.areaPos, rfl⟩
    rw [encoderReady_iff]
    exact ⟨hb, hd, compressAccepts_congr (s := s) rfl rfl ha, Nat.le_refl 1, ha.areaPos, Nat.le_refl 1,
      (by decide : 1 ≤ Config.maxRun), Nat.zero_le _⟩

/-- The start of a DECOMPRESS is a DECOMPRESS in progress, or its end (42_rle_decode.md R87). -/
theorem startDecompress_cases {s : State} (hb : s.phase = .busy)
    (hd : decodeCommand s.latchedCmd = .ok .decompress) :
    (∃ d, (startDecompress s).seq = .decoding d ∧ decoderReady (startDecompress s) d = true ∧ d.k = 0 ∧
      (startDecompress s).cfg = s.cfg) ∨
    ((startDecompress s).phase = .idle ∧ (startDecompress s).seq = .off) := by
  unfold startDecompress
  cases hc : decompressCheck s with
  | some p => exact .inr ⟨rfl, rfl⟩
  | none =>
    have ha := (decompressCheck_none_iff s).1 hc
    refine .inl ⟨_, rfl, ?_, rfl, rfl⟩
    rw [decoderReady_iff]
    exact ⟨hb, hd, decompressAccepts_congr (s := s) rfl rfl ha, Nat.zero_le _, Nat.zero_le _⟩

/-! ### What no move of the core changes: the operands, and everything of the host -/

/-- The operands of the running command, the memory's size and everything of the host are the same. -/
structure CoreFrame (s t : State) : Prop where
  cfg : t.cfg = s.cfg
  latchedCmd : t.latchedCmd = s.latchedCmd
  lastAddr : t.lastAddr = s.lastAddr
  resetIn : t.resetIn = s.resetIn
  turns : t.turns = s.turns
  unobserved : t.unobserved = s.unobserved
  program : t.program = s.program
  seen : t.seen = s.seen

theorem CoreFrame.refl (s : State) : CoreFrame s s := ⟨rfl, rfl, rfl, rfl, rfl, rfl, rfl, rfl⟩

theorem CoreFrame.trans {s t u : State} (h1 : CoreFrame s t) (h2 : CoreFrame t u) : CoreFrame s u :=
  ⟨h2.cfg.trans h1.cfg, h2.latchedCmd.trans h1.latchedCmd, h2.lastAddr.trans h1.lastAddr, h2.resetIn.trans h1.resetIn,
    h2.turns.trans h1.turns, h2.unobserved.trans h1.unobserved, h2.program.trans h1.program, h2.seen.trans h1.seen⟩

theorem raiseError_coreFrame (s : State) (c : ErrCode) (i : Word) : CoreFrame s (raiseError s c i) :=
  ⟨rfl, rfl, rfl, rfl, rfl, rfl, rfl, rfl⟩

theorem runToken_coreFrame (v : Bool) (len : Nat) (s : State) (d : Decoder) : CoreFrame s (runToken v len s d) := by
  unfold runToken
  split <;> exact ⟨rfl, rfl, rfl, rfl, rfl, rfl, rfl, rfl⟩

theorem finishDecompress_coreFrame (s : State) (d : Decoder) : CoreFrame s (finishDecompress s d) := by
  unfold finishDecompress
  split <;> exact ⟨rfl, rfl, rfl, rfl, rfl, rfl, rfl, rfl⟩

theorem startCompress_coreFrame (s : State) : CoreFrame s (startCompress s) := by
  unfold startCompress
  split <;> exact ⟨rfl, rfl, rfl, rfl, rfl, rfl, rfl, rfl⟩

theorem startDecompress_coreFrame (s : State) : CoreFrame s (startDecompress s) := by
  unfold startDecompress
  split <;> exact ⟨rfl, rfl, rfl, rfl, rfl, rfl, rfl, rfl⟩

theorem encodeUnit_coreFrame (s : State) (e : Encoder) : CoreFrame s (encodeUnit s e) := by
  rcases encodeUnit_cases s e with ⟨-, -, h⟩ | ⟨-, -, h⟩ | ⟨-, -, h⟩ | ⟨-, h⟩ <;> rw [h] <;>
    exact ⟨rfl, rfl, rfl, rfl, rfl, rfl, rfl, rfl⟩

theorem decodeUnit_coreFrame (s : State) (d : Decoder) : CoreFrame s (decodeUnit s d) := by
  unfold decodeUnit
  split
  · exact runToken_coreFrame _ _ s d
  · exact finishDecompress_coreFrame s d

theorem encodeLoop_coreFrame (fuel : Nat) (s : State) : CoreFrame s (encodeLoop fuel s) := by
  induction fuel generalizing s with
  | zero => exact CoreFrame.refl s
  | succ n ih =>
    unfold encodeLoop
    split
    · exact (encodeUnit_coreFrame s _).trans (ih _)
    · exact CoreFrame.refl s
    · exact CoreFrame.refl s

theorem decodeLoop_coreFrame (fuel : Nat) (s : State) : CoreFrame s (decodeLoop fuel s) := by
  induction fuel generalizing s with
  | zero => exact CoreFrame.refl s
  | succ n ih =>
    unfold decodeLoop
    split
    · exact (decodeUnit_coreFrame s _).trans (ih _)
    · exact CoreFrame.refl s
    · exact CoreFrame.refl s

theorem execToken_coreFrame {v : Bool} {len : Nat} {s t : State} (h : execToken v len s = .next t) : CoreFrame s t := by
  obtain ⟨d, -, -, -, rfl⟩ := execToken_next h
  exact runToken_coreFrame v len s d

/-- An instruction. -/
theorem exec_coreFrame {i : Instr} {s t : State} (h : exec i s = .next t) : CoreFrame s t := by
  cases i with
  | getBit =>
    simp only [exec, execGetBit] at h
    split at h <;> cases h <;> exact ⟨rfl, rfl, rfl, rfl, rfl, rfl, rfl, rfl⟩
  | setBit =>
    simp only [exec, execSetBit] at h
    split at h <;> cases h <;> exact ⟨rfl, rfl, rfl, rfl, rfl, rfl, rfl, rfl⟩
  | packedBytes =>
    simp only [exec, execPackedBytes] at h
    split at h <;> cases h <;> exact ⟨rfl, rfl, rfl, rfl, rfl, rfl, rfl, rfl⟩
  | compress => cases h; exact (startCompress_coreFrame s).trans (encodeLoop_coreFrame _ _)
  | decompress => cases h; exact (startDecompress_coreFrame s).trans (decodeLoop_coreFrame _ _)
  | run0 len => exact execToken_coreFrame (v := false) h
  | run1 len => exact execToken_coreFrame (v := true) h

/-- The core step. -/
theorem coreStep_coreFrame {s t : State} (h : coreStep s = .next t) : CoreFrame s t := by
  unfold coreStep at h
  split at h
  · cases h; exact CoreFrame.refl s
  · split at h
    · unfold runLatched at h
      split at h
      · exact exec_coreFrame h
      · cases h; exact raiseError_coreFrame s _ _
    · unfold resumeCompress at h
      split at h <;> cases h
      exact encodeLoop_coreFrame _ s
    · unfold resumeDecompress at h
      split at h <;> cases h
      exact decodeLoop_coreFrame _ s

/-- One internal action. -/
theorem coreUnit_coreFrame {s t : State} (h : coreUnit s = .next t) : CoreFrame s t := by
  unfold coreUnit at h
  split at h
  · cases h; exact CoreFrame.refl s
  · split at h
    · unfold beginLatched at h
      split at h
      · cases h; exact startCompress_coreFrame s
      · cases h; exact startDecompress_coreFrame s
      · exact exec_coreFrame h
      · cases h; exact raiseError_coreFrame s _ _
    · unfold unitCompress at h
      split at h <;> cases h
      exact encodeUnit_coreFrame s _
    · unfold unitDecompress at h
      split at h
      · exact exec_coreFrame h
      · split at h <;> cases h
        exact finishDecompress_coreFrame s _

/-! ### What the ends keep: the canonical form, and the memory's bound -/

theorem finishCompress_mem (s : State) (count : Nat) : (finishCompress s count).mem = s.mem := rfl

theorem compressEnd_wf {s : State} (hm : s.mem.wf) (count : Nat) (rs : List (Bool × Nat)) :
    (compressEnd s count rs).mem.wf := by
  unfold compressEnd
  split
  · exact writeTokens_wf hm _ _
  · exact Memory.scramble_wf (writeTokens_wf hm _ _) _ _ _ _

theorem compressEnd_bounded {s : State} {n count : Nat} (hm : s.mem.boundedBy n) (hc : count ≤ capacity s)
    (hn : dstBase s + capacity s ≤ n) (rs : List (Bool × Nat)) : (compressEnd s count rs).mem.boundedBy n := by
  unfold compressEnd
  split
  · exact writeTokens_bounded hm _ (by omega)
  · exact Memory.scramble_bounded (writeTokens_bounded hm _ (by rw [List.length_take]; omega)) _ _ (.inl hn)

theorem lengthError_wf {s : State} (hm : s.mem.wf) (c : ErrCode) (i : Nat) : (lengthError s c i).mem.wf :=
  Memory.scramble_wf hm _ _ _ _

theorem lengthError_bounded {s : State} {n : Nat} (hm : s.mem.boundedBy n) (hn : dstBase s + packedLen s ≤ n)
    (c : ErrCode) (i : Nat) : (lengthError s c i).mem.boundedBy n :=
  Memory.scramble_bounded hm _ _ (.inl hn)

theorem runToken_wf {s : State} (hm : s.mem.wf) (v : Bool) (len : Nat) (d : Decoder) :
    (runToken v len s d).mem.wf := by
  unfold runToken
  split
  · exact lengthError_wf hm _ _
  · exact Memory.setBits_wf hm _ _ _ _

theorem runToken_bounded {s : State} {n : Nat} (hm : s.mem.boundedBy n) (hn : dstBase s + packedLen s ≤ n) (v : Bool)
    (len : Nat) (d : Decoder) : (runToken v len s d).mem.boundedBy n := by
  unfold runToken
  split
  · exact lengthError_bounded hm hn _ _
  · have := area_le_packedLen s
    exact Memory.setBits_bounded hm _ fun j h1 h2 => by omega

theorem runToken_sameOutside (v : Bool) (len : Nat) (s : State) (d : Decoder) :
    SameOutside (dstWindow s .decompress) s.mem (runToken v len s d).mem := by
  unfold runToken
  split
  · exact lengthError_sameOutside _ _ _
  · exact setBits_sameOutside s _ (by omega)

theorem finishDecompress_wf {s : State} (hm : s.mem.wf) (d : Decoder) : (finishDecompress s d).mem.wf := by
  unfold finishDecompress
  split
  · exact lengthError_wf hm _ _
  · exact Memory.setBits_wf hm _ _ _ _

theorem finishDecompress_bounded {s : State} {n : Nat} (hm : s.mem.boundedBy n) (hn : dstBase s + packedLen s ≤ n)
    (d : Decoder) : (finishDecompress s d).mem.boundedBy n := by
  unfold finishDecompress
  split
  · exact lengthError_bounded hm hn _ _
  · refine Memory.setBits_bounded hm _ fun j h1 h2 => ?_
    have := area_le_packedLen s
    rw [packedSize_eq] at h2
    omega

theorem decompressEnd_wf {s : State} (hm : s.mem.wf) (d : Decoder) (ts : List Byte) :
    (decompressEnd s d ts).mem.wf := by
  induction ts generalizing s d with
  | nil => exact finishDecompress_wf hm d
  | cons t ts ih =>
    rw [decompressEnd]
    split
    · exact lengthError_wf hm _ _
    · exact ih (s := { s with mem := s.mem.setBits (dstBase s) d.pos (tokenLength t) (tokenValue t) })
        (Memory.setBits_wf hm _ _ _ _) _

theorem decompressEnd_bounded {s : State} {n : Nat} (hm : s.mem.boundedBy n) (hn : dstBase s + packedLen s ≤ n)
    (d : Decoder) (ts : List Byte) : (decompressEnd s d ts).mem.boundedBy n := by
  induction ts generalizing s d with
  | nil => exact finishDecompress_bounded hm hn d
  | cons t ts ih =>
    rw [decompressEnd]
    split
    · exact lengthError_bounded hm hn _ _
    · have := area_le_packedLen s
      exact ih (s := { s with mem := s.mem.setBits (dstBase s) d.pos (tokenLength t) (tokenValue t) })
        (Memory.setBits_bounded hm _ fun j h1 h2 => by omega) hn _

end Sys2Proof.Machine
end

