-- ==== Sys2Proof/Laws/PerInstr.lean ====
section
/-! SUPPORT. One lemma per constructor: the encoding of a well-formed instruction is a word of its row of
spec/opcode_table.json, in the format and under the mask of that row. -/

namespace Sys2Proof.Laws

/-- A row of the opcode table: the width of its format, its match and its mask. -/
structure TableRow where
  bits : Nat
  pattern : Nat
  mask : Nat
  deriving DecidableEq, Repr

/-- The row of each instruction. -/
def tableRow : Instr → TableRow
  | .getBit => { bits := 32, pattern := 0x00000001, mask := 0xFFFFFFFF }
  | .setBit => { bits := 32, pattern := 0x00000002, mask := 0xFFFFFFFF }
  | .packedBytes => { bits := 32, pattern := 0x00000003, mask := 0xFFFFFFFF }
  | .compress => { bits := 32, pattern := 0x00000004, mask := 0xFFFFFFFF }
  | .decompress => { bits := 32, pattern := 0x00000005, mask := 0xFFFFFFFF }
  | .run0 _ => { bits := 8, pattern := 0x00, mask := 0x80 }
  | .run1 _ => { bits := 8, pattern := 0x80, mask := 0x80 }

/-- The encoded instruction is a word of the row. -/
def TableRow.fits (r : TableRow) : Encoded → Bool
  | .cmdw w => decide (r.bits = 32 ∧ w.toNat &&& r.mask = r.pattern)
  | .token b => decide (r.bits = 8 ∧ b.toNat &&& r.mask = r.pattern)

/-- The token of every run length is in the row of its value. -/
theorem token_fits : ∀ l : Fin 128, (tableRow (.run0 (l.val + 1))).fits (encode (.run0 (l.val + 1))) = true ∧
    (tableRow (.run1 (l.val + 1))).fits (encode (.run1 (l.val + 1))) = true := by decide

/-- The encoding of the instruction is a word of its row. -/
def MatchesTable.Statement (i : Instr) : Prop := i.wellFormed = true → (tableRow i).fits (encode i) = true

theorem MatchesTable.getBit : MatchesTable.Statement .getBit := fun _ => by decide
theorem MatchesTable.setBit : MatchesTable.Statement .setBit := fun _ => by decide
theorem MatchesTable.packedBytes : MatchesTable.Statement .packedBytes := fun _ => by decide
theorem MatchesTable.compress : MatchesTable.Statement .compress := fun _ => by decide
theorem MatchesTable.decompress : MatchesTable.Statement .decompress := fun _ => by decide

theorem MatchesTable.run0 (len : Nat) : MatchesTable.Statement (.run0 len) := fun h => by
  obtain ⟨h1, h2⟩ := of_decide_eq_true h
  have := (token_fits ⟨len - 1, Nat.lt_of_lt_of_le (Nat.sub_lt h1 Nat.zero_lt_one) h2⟩).1
  rwa [Nat.sub_add_cancel h1] at this

theorem MatchesTable.run1 (len : Nat) : MatchesTable.Statement (.run1 len) := fun h => by
  obtain ⟨h1, h2⟩ := of_decide_eq_true h
  have := (token_fits ⟨len - 1, Nat.lt_of_lt_of_le (Nat.sub_lt h1 Nat.zero_lt_one) h2⟩).2
  rwa [Nat.sub_add_cancel h1] at this

end Sys2Proof.Laws
end

