-- ==== Sys2Proof/Tests/Slice0.lean ====
section
/-! SUPPORT. The model's own tests: the checks of WellFormed, words written out from the encodings of 30_encoding.md, single
steps with the expected values of 95_test_vectors.md (the vector's number stands at each), and for every statement with
hypotheses a concrete state and operands that meet them. -/

namespace Sys2Proof.Tests

open Sys2Proof.Machine

/-! ### WellFormed -/

theorem test_run_of_length_0_is_ill_formed : (Instr.run0 0).wellFormed = false ∧ (Instr.run1 0).wellFormed = false := by
  decide

theorem test_run_of_length_129_is_ill_formed :
    (Instr.run0 129).wellFormed = false ∧ (Instr.run1 129).wellFormed = false := by decide

theorem test_run_of_length_1_and_128_is_well_formed :
    (Instr.run0 1).wellFormed = true ∧ (Instr.run1 128).wellFormed = true := by decide

/-! ### Decoding: words written out bit by bit (30_encoding.md R59 to R65) -/

theorem test_decode_get_bit : decode (.cmdw 0b00000000000000000000000000000001) = .ok .getBit := by decide

theorem test_decode_set_bit : decode (.cmdw 0b00000000000000000000000000000010) = .ok .setBit := by decide

theorem test_decode_packed_bytes : decode (.cmdw 0b00000000000000000000000000000011) = .ok .packedBytes := by decide

theorem test_decode_compress : decode (.cmdw 0b00000000000000000000000000000100) = .ok .compress := by decide

theorem test_decode_decompress : decode (.cmdw 0b00000000000000000000000000000101) = .ok .decompress := by decide

/-- R61: V = 0, L = 0000011 is four 0s. -/
theorem test_decode_run0 : decode (.token 0b00000011) = .ok (.run0 4) := by decide

/-- R61: V = 1, L = 1111110 is 127 ones. -/
theorem test_decode_run1 : decode (.token 0b11111110) = .ok (.run1 127) := by decide

/-- R65: OP = 0, OP = 6, OP = 15, and Z ≠ 0. -/
theorem test_decode_refuses_undefined_words :
    decode (.cmdw 0x00000000) = .error .undefinedOp ∧ decode (.cmdw 0x00000006) = .error .undefinedOp ∧
    decode (.cmdw 0x0000000F) = .error .undefinedOp ∧ decode (.cmdw 0x00000011) = .error .reservedBits ∧
    decode (.cmdw 0x80000004) = .error .reservedBits := by decide

theorem test_decode_table_words :
    decodeTableWord 32 5 = some .decompress ∧ decodeTableWord 32 6 = none ∧ decodeTableWord 8 0x00 = some (.run0 1) ∧
    decodeTableWord 8 0x80 = some (.run1 1) := by decide

/-! ### Small states -/

/-- MEM_BYTES = 0x1000, as the vectors take it. -/
def small : State := { State.reset with lastAddr := 0xFFF }

/-- A command accepted, the registers and the memory being these. -/
def accepted (cfg : ConfigRegs) (mem : Memory) (w : Word) : State :=
  acceptFromHost { small with cfg := cfg, mem := mem } w

/-- The registers of a bit command on a buffer at 0x100. -/
def bitRegs (size index value : Nat) : ConfigRegs :=
  { ConfigRegs.zero with
    srcAddr := 0x100, srcSize := BitVec.ofNat 32 size, bitIndex := BitVec.ofNat 32 index, bitValue := BitVec.ofNat 1 value }

/-- The registers of a codec command, source at 0x100, destination at 0x200. -/
def imageRegs (w h : Nat) (flags : BitVec 2) (size : Nat) : ConfigRegs :=
  { ConfigRegs.zero with
    width := BitVec.ofNat 32 w, height := BitVec.ofNat 32 h, flags := flags, srcAddr := 0x100
    srcSize := BitVec.ofNat 32 size, dstAddr := 0x200 }

/-- What the host reads after the step: STATUS, RESULT, OUT_FLAGS, OUT_CSIZE, ERR_INFO. -/
def results (o : Host.Outcome State Fault Refusal) : Option (List Word) :=
  match o with
  | .next t => some [statusWord t, readReg t .result, readReg t .outFlags, readReg t .outCsize, readReg t .errInfo]
  | .fault _ => none
  | .refused _ => none

/-- The memory after the step. -/
def memoryOf (o : Host.Outcome State Fault Refusal) : Option Memory :=
  match o with
  | .next t => some t.mem
  | .fault _ => none
  | .refused _ => none

/-- The hidden state after the step. -/
def sequencerOf (o : Host.Outcome State Fault Refusal) : Option Sequencer :=
  match o with
  | .next t => some t.seq
  | .fault _ => none
  | .refused _ => none

/-- The step stops with a refusal of this name. -/
def refusedWith (o : Host.Outcome State Fault Refusal) (r : Refusal) : Bool :=
  match o with
  | .next _ => false
  | .fault _ => false
  | .refused q => decide (q = r)

/-! ### One instruction each -/

/-- G1: stream bits 1 and 10 of A5 3C. -/
theorem test_get_bit_reads_msb_first :
    results (exec .getBit (accepted (bitRegs 2 1 0) [(0x100, 0xA5), (0x101, 0x3C)] 1)) = some [0x2, 0, 0, 0, 0] ∧
    results (exec .getBit (accepted (bitRegs 2 10 0) [(0x100, 0xA5), (0x101, 0x3C)] 1)) = some [0x2, 1, 0, 0, 0] := by
  decide

/-- G2 and G5: BIT_INDEX = 8 SRC_SIZE; a window past MEM_BYTES comes first. -/
theorem test_get_bit_errors :
    results (exec .getBit (accepted (bitRegs 2 16 0) [(0x100, 0xA5)] 1)) = some [0x602, 0, 0, 0, 16] ∧
    results (exec .getBit (accepted { bitRegs 2 99 0 with srcAddr := 0xFFF } [] 1)) = some [0x402, 0, 0, 0, 0] := by
  decide

/-- S6 and S8: bit 1 of AA; bit 9 of 00 00. -/
theorem test_set_bit_sets :
    memoryOf (exec .setBit (accepted (bitRegs 1 1 1) [(0x100, 0xAA)] 2)) = some [(0x100, 0xEA)] ∧
    memoryOf (exec .setBit (accepted (bitRegs 2 9 1) [] 2)) = some [(0x101, 0x40)] := by decide

/-- S3 clears bit 3 of FF; S9 is out of range and writes nothing. -/
theorem test_set_bit_clears_and_checks :
    memoryOf (exec .setBit (accepted (bitRegs 1 3 0) [(0x100, 0xFF)] 2)) = some [(0x100, 0xEF)] ∧
    memoryOf (exec .setBit (accepted (bitRegs 1 8 1) [] 2)) = some [] ∧
    results (exec .setBit (accepted (bitRegs 1 8 1) [] 2)) = some [0x602, 0, 0, 0, 8] := by decide

/-- B3, B5 and B8. -/
theorem test_packed_bytes :
    results (exec .packedBytes (accepted (imageRegs 9 1 0 0) [] 3)) = some [0x2, 2, 0, 0, 0] ∧
    results (exec .packedBytes (accepted (imageRegs 0 5 0 0) [] 3)) = some [0x2, 0, 0, 0, 0] ∧
    results (exec .packedBytes (accepted (imageRegs 65535 65537 0 0) [] 3)) = some [0x2, 536870912, 0, 0, 0] := by decide

/-- B10. -/
theorem test_packed_bytes_area_overflow :
    results (exec .packedBytes (accepted (imageRegs 65536 65536 0 0) [] 3)) = some [0x302, 0, 0, 0, 2] := by decide

/-- K8: 00 00 FF FF compresses to 0F 8F. -/
theorem test_compress :
    results (exec .compress (accepted (imageRegs 32 1 0 0) [(0x102, 0xFF), (0x103, 0xFF)] 4)) = some [0x2, 2, 1, 2, 0] ∧
    memoryOf (exec .compress (accepted (imageRegs 32 1 0 0) [(0x102, 0xFF), (0x103, 0xFF)] 4)) =
      some [(0x102, 0xFF), (0x103, 0xFF), (0x200, 0x0F), (0x201, 0x8F)] := by decide

/-- K1, K17 and K26: no room for one token; overlapping windows; T = P. And R46: an empty destination window past MEM_BYTES. -/
theorem test_compress_errors :
    results (exec .compress (accepted (imageRegs 2 2 0 0) [] 4)) = some [0x702, 0, 0, 0, 0] ∧
    results (exec .compress (accepted { imageRegs 32 1 0 0 with dstAddr := 0x102 } [] 4)) = some [0x502, 0, 0, 0, 0] ∧
    results (exec .compress (accepted (imageRegs 16 1 0 0) [(0x101, 0x01)] 4)) = some [0x702, 0, 0, 0, 1] ∧
    results (exec .compress (accepted { imageRegs 8 1 0 0 with dstAddr := 0x1001 } [] 4)) = some [0x402, 0, 0, 0, 1] := by
  decide

/-- D16: 8B over AA AA gives FF F0, the pad bits 0. -/
theorem test_decompress :
    results (exec .decompress (accepted (imageRegs 12 1 1 1) [(0x100, 0x8B), (0x200, 0xAA), (0x201, 0xAA)] 5)) =
      some [0x2, 2, 0, 0, 0] ∧
    memoryOf (exec .decompress (accepted (imageRegs 12 1 1 1) [(0x100, 0x8B), (0x200, 0xAA), (0x201, 0xAA)] 5)) =
      some [(0x100, 0x8B), (0x200, 0xFF), (0x201, 0xF0)] := by decide

/-- D8 and D9. -/
theorem test_decompress_length_errors :
    results (exec .decompress (accepted (imageRegs 2 2 1 2) [(0x100, 0x01), (0x101, 0x02)] 5)) =
      some [0x802, 0, 0, 0, 1] ∧
    results (exec .decompress (accepted (imageRegs 2 2 1 1) [(0x100, 0x01)] 5)) = some [0x902, 0, 0, 0, 2] := by decide

/-- A DECOMPRESS of a 12 x 1 image of two tokens in progress, with `pos` bits produced and token k next. -/
def decoding (k pos : Nat) : State :=
  { accepted (imageRegs 12 1 1 2) [(0x100, 0x03), (0x101, 0x87), (0x200, 0xFF)] 5 with
    seq := .decoding { k := k, pos := pos } }

/-- R88, R89: RUN 0, 4 as the first token clears stream bits 0 .. 3. -/
theorem test_run0_appends :
    memoryOf (exec (.run0 4) (decoding 0 0)) = some [(0x100, 0x03), (0x101, 0x87), (0x200, 0x0F)] ∧
    sequencerOf (exec (.run0 4) (decoding 0 0)) = some (.decoding { k := 1, pos := 4 }) := by decide

/-- R88, R89: RUN 1, 8 as token 1 after 4 bits sets stream bits 4 .. 11, across a byte boundary. -/
theorem test_run1_appends :
    memoryOf (exec (.run1 8) (decoding 1 4)) =
      some [(0x100, 0x03), (0x101, 0x87), (0x200, 0xFF), (0x201, 0xF0)] ∧
    sequencerOf (exec (.run1 8) (decoding 1 4)) = some (.decoding { k := 2, pos := 12 }) := by decide

/-- R90: one bit too many. -/
theorem test_run_overruns : results (exec (.run1 9) (decoding 1 4)) = some [0x802, 0, 0, 0, 1] := by decide

/-- X2 and X4. -/
theorem test_undefined_command_words :
    results (coreStep (accepted ConfigRegs.zero [] 0x00000006)) = some [0x102, 0, 0, 0, 6] ∧
    results (coreStep (accepted ConfigRegs.zero [] 0x00000011)) = some [0x102, 0, 0, 0, 0x11] := by decide

/-! ### Steps from reset -/

/-- Each row of the opcode table as the first instruction after reset: GET_BIT and SET_BIT of an empty window (R73, R74),
PACKED_BYTES and the codecs on a zero area (R75, R79, R87). -/
theorem test_first_instruction_after_reset :
    results (step (State.reset.withFetchWord 32 1)) = some [0x602, 0, 0, 0, 0] ∧
    results (step (State.reset.withFetchWord 32 2)) = some [0x602, 0, 0, 0, 0] ∧
    results (step (State.reset.withFetchWord 32 3)) = some [0x2, 0, 0, 0, 0] ∧
    results (step (State.reset.withFetchWord 32 4)) = some [0x302, 0, 0, 0, 1] ∧
    results (step (State.reset.withFetchWord 32 5)) = some [0x202, 0, 0, 0, 0] := by decide

/-- The two tokens: RUN 0, 1 and RUN 1, 4. -/
theorem test_first_token_after_reset :
    sequencerOf (step (State.reset.withFetchWord 8 0x00)) = some (.decoding { k := 1, pos := 1 }) ∧
    memoryOf (step (State.reset.withFetchWord 8 0x83)) = some [(0, 0x83), (1, 0xF0)] := by decide

/-- Q2, Q3: FLAGS stores two bits, BIT_VALUE one. -/
theorem test_register_writes_store_implemented_bits :
    (match hostOp small (.regWrite 0x10 4 0xFFFFFFFF) with
      | .next t => decide (readReg t .flags = 3) | .fault _ => false | .refused _ => false) = true ∧
    (match hostOp small (.regWrite 0x24 4 0xFFFFFFFE) with
      | .next t => decide (readReg t .bitValue = 0) | .fault _ => false | .refused _ => false) = true := by decide

/-- Q8: between acceptance and completion STATUS reads 1 and the results 0. -/
theorem test_status_while_busy :
    results (hostOp { small with done := true, out := { ResultRegs.zero with result := 7 } } (.regWrite 0x00 4 3)) =
      some [0x1, 0, 0, 0, 0] := by decide

/-- R126: from acceptance until STATUS first reads BUSY = 0 a write into the window is refused, although the core has
completed the command. -/
theorem test_window_write_is_refused_until_status_is_read :
    (match exec .getBit (accepted (bitRegs 1 0 0) [] 1) with
      | .next t => refusedWith (hostOp t (.memWrite 0x100 1)) (.windowHazard 0x100)
      | .fault _ => false | .refused _ => false) = true ∧
    (match exec .getBit (accepted (bitRegs 1 0 0) [] 1) with
      | .next t =>
        (match hostOp t (.regRead 0x04 4) with
          | .next u => decide (memoryOf (hostOp u (.memWrite 0x100 1)) = some [(0x100, 1)])
          | .fault _ => false | .refused _ => false)
      | .fault _ => false | .refused _ => false) = true := by decide

/-- Q9, for a GET_BIT: reset while BUSY. -/
theorem test_reset_while_busy :
    results (step { accepted (bitRegs 1 0 0) [(0x100, 0x80)] 1 with resetIn := true }) = some [0, 0, 0, 0, 0] ∧
    memoryOf (step { accepted (bitRegs 1 0 0) [(0x100, 0x80)] 1 with resetIn := true }) = some [(0x100, 0x80)] := by
  decide

/-! ### Witnesses: concrete states and operands that meet the hypotheses of each statement, at the ends of their ranges -/

/-- An IDLE machine that meets the invariant. -/
theorem small_inv : small.Inv where
  memWf := by decide
  memBound := by decide
  busyClear := by decide
  freshClear := by decide
  errorClear := by decide
  okInfo := by decide
  neverText := by decide
  idleSeq := by decide
  seqReady := trivial
  busyOpen := by decide

/-- A GET_BIT accepted. -/
def busyGetBit : State := accepted (bitRegs 1 7 1) [(0x100, 0x01)] 1

/-- A COMPRESS accepted that completes OK with T = CAP = 1. -/
def busyCompress : State := accepted (imageRegs 16 1 0 0) [] 4

/-- A COMPRESS in progress, one bit scanned. -/
def encoding : State := { busyCompress with seq := .encoding { i := 1, v := false, len := 1, count := 0 } }

/-- A DECOMPRESS accepted of the tokens 03 87, a 12 x 1 image. -/
def busyDecompress : State := accepted (imageRegs 12 1 1 2) [(0x100, 0x03), (0x101, 0x87)] 5

theorem busyGetBit_inv : busyGetBit.Inv where
  memWf := by decide
  memBound := by decide
  busyClear := by decide
  freshClear := by decide
  errorClear := by decide
  okInfo := by decide
  neverText := by decide
  idleSeq := by decide
  seqReady := trivial
  busyOpen := by decide

theorem encoding_inv : encoding.Inv where
  memWf := by decide
  memBound := by decide
  busyClear := by decide
  freshClear := by decide
  errorClear := by decide
  okInfo := by decide
  neverText := by decide
  idleSeq := by decide
  seqReady := (by decide : encoderReady encoding { i := 1, v := false, len := 1, count := 0 } = true)
  busyOpen := by decide

theorem decoding_inv : (decoding 1 4).Inv where
  memWf := by decide
  memBound := by decide
  busyClear := by decide
  freshClear := by decide
  errorClear := by decide
  okInfo := by decide
  neverText := by decide
  idleSeq := by decide
  seqReady := (by decide : decoderReady (decoding 1 4) { k := 1, pos := 4 } = true)
  busyOpen := by decide

theorem witness_DecodeOfEncodeGivesTheInstruction :
    Instr.getBit.wellFormed = true ∧ (Instr.run0 1).wellFormed = true ∧ (Instr.run1 128).wellFormed = true := by decide

theorem witness_EncodeOfDecodeGivesTheWord :
    decode (.cmdw 0x00000005) = .ok .decompress ∧ decode (.token 0xFF) = .ok (.run1 128) := by decide

theorem witness_TokenIsValueBitAndBiasedLength : (1 ≤ 1 ∧ 1 ≤ 128) ∧ (1 ≤ 128 ∧ 128 ≤ 128) := by decide

theorem witness_IdleWritesStoreTheImplementedBits : small.phase = .idle := by decide

theorem witness_AcceptanceLatchesAndClears : small.phase = .idle := by decide

theorem witness_BusyWritesAreIgnored :
    busyGetBit.phase = .busy ∧ 0 % 4 = 0 ∧ 0 < 64 ∧ 60 % 4 = 0 ∧ 60 < 64 ∧ busyGetBit.Inv :=
  ⟨by decide, by decide, by decide, by decide, by decide, busyGetBit_inv⟩

theorem witness_RegisterReadsFollowTheMap :
    ((0x3C, 0) : Nat × Word) ∈ [((0x00, 0) : Nat × Word), (0x04, statusWord small), (0x3C, 0)] := by decide

theorem witness_ReadOnlyWritesAreIgnored :
    0x04 ∈ [0x04, 0x28, 0x2C, 0x30, 0x34, 0x38, 0x3C] ∧ 0x3C ∈ [0x04, 0x28, 0x2C, 0x30, 0x34, 0x38, 0x3C] := by decide

/-- A byte access, a misaligned one, one past the window; the first and the last register. -/
theorem witness_OnlyAlignedWordAccessesHaveMeaning :
    1 ≠ 4 ∧ 62 % 4 ≠ 0 ∧ 64 ≤ 64 ∧ (4 = 4 ∧ 0 % 4 = 0 ∧ 0 < 64) ∧ (4 = 4 ∧ 60 % 4 = 0 ∧ 60 < 64) := by decide

theorem witness_StatusLayout : small.Inv ∧ busyGetBit.Inv := ⟨small_inv, busyGetBit_inv⟩

/-- The words 0 and 6, next to the five commands. -/
theorem witness_IllegalWordEndsInErrOpcode :
    (accepted ConfigRegs.zero [] 0).phase = .busy ∧ (accepted ConfigRegs.zero [] 0).seq = .off ∧
    (accepted ConfigRegs.zero [] 0).latchedCmd = 0 ∧ (accepted ConfigRegs.zero [] 6).latchedCmd = 6 ∧
    ((0 : Word) ≠ 1 ∧ (0 : Word) ≠ 2 ∧ (0 : Word) ≠ 3 ∧ (0 : Word) ≠ 4 ∧ (0 : Word) ≠ 5) ∧
    ((6 : Word) ≠ 1 ∧ (6 : Word) ≠ 2 ∧ (6 : Word) ≠ 3 ∧ (6 : Word) ≠ 4 ∧ (6 : Word) ≠ 5) := by decide

theorem witness_MemoryReadAfterWrite : Memory.wf [(0x100, 0x01)] := by decide

/-- The last bit of the buffer: BIT_INDEX = 8 SRC_SIZE - 1. -/
theorem busyGetBit_accepts : BitAccepts busyGetBit := ⟨by decide, by decide⟩

/-- The last byte of memory, its last bit (G6). -/
theorem lastByte_accepts : BitAccepts { busyGetBit with cfg := { bitRegs 1 7 1 with srcAddr := 0xFFF } } :=
  ⟨by decide, by decide⟩

theorem witness_GetBitAfterSetBit : busyGetBit.mem.wf ∧ BitAccepts busyGetBit := ⟨by decide, busyGetBit_accepts⟩

theorem witness_SetBitIsLocal : busyGetBit.mem.wf ∧ 6 ≠ 7 ∧ 0x101 ≠ 0x100 + 7 / 8 := by decide

/-- The last bit in range; a window one byte past MEM_BYTES (G8); BIT_INDEX = 8 SRC_SIZE, and an empty window at MEM_BYTES
(G7). -/
theorem witness_GetBitCompletes :
    BitAccepts busyGetBit ∧
    (let s := accepted { bitRegs 0 0 0 with srcAddr := 0x1001 } [] 1
     s.lastAddr.toNat + 1 < s.cfg.srcAddr.toNat + s.cfg.srcSize.toNat) ∧
    (let s := accepted (bitRegs 1 8 0) [] 1
     s.cfg.srcAddr.toNat + s.cfg.srcSize.toNat ≤ s.lastAddr.toNat + 1 ∧
       8 * s.cfg.srcSize.toNat ≤ s.cfg.bitIndex.toNat) ∧
    (let s := accepted { bitRegs 0 0 0 with srcAddr := 0x1000 } [] 1
     s.cfg.srcAddr.toNat + s.cfg.srcSize.toNat ≤ s.lastAddr.toNat + 1 ∧
       8 * s.cfg.srcSize.toNat ≤ s.cfg.bitIndex.toNat) :=
  ⟨busyGetBit_accepts, by decide, by decide, by decide⟩

theorem witness_SetBitCompletes :
    busyGetBit.mem.wf ∧ BitAccepts busyGetBit ∧ 0x101 ≠ 0x100 + 7 / 8 ∧
    BitAccepts { busyGetBit with cfg := { bitRegs 1 7 1 with srcAddr := 0xFFF } } ∧
    (let s := accepted { bitRegs 2 0 0 with srcAddr := 0xFFF } [] 2
     s.mem.wf ∧ s.lastAddr.toNat + 1 < s.cfg.srcAddr.toNat + s.cfg.srcSize.toNat) ∧
    (let s := accepted (bitRegs 1 8 0) [] 2
     s.mem.wf ∧ s.cfg.srcAddr.toNat + s.cfg.srcSize.toNat ≤ s.lastAddr.toNat + 1 ∧
       8 * s.cfg.srcSize.toNat ≤ s.cfg.bitIndex.toNat) :=
  ⟨by decide, busyGetBit_accepts, by decide, lastByte_accepts, by decide, by decide⟩

/-- Areas 0, 2^32 - 1 (B8) and 2^32 (B10). -/
theorem witness_PackedBytesCompletes :
    (imageRegs 0 5 0 0).width.toNat * (imageRegs 0 5 0 0).height.toNat ≤ 2 ^ 32 - 1 ∧
    (imageRegs 65535 65537 0 0).width.toNat * (imageRegs 65535 65537 0 0).height.toNat = 2 ^ 32 - 1 ∧
    2 ^ 32 - 1 < (imageRegs 65536 65536 0 0).width.toNat * (imageRegs 65536 65536 0 0).height.toNat := by decide

/-- G5 for the bit commands; K23 and K24 for COMPRESS; an 8 x 1 COMPRESS, its empty destination window one past MEM_BYTES (log
entry 16); D19 for DECOMPRESS. -/
theorem witness_WindowOutsideMemoryIsErrBus :
    (let s := accepted { bitRegs 2 0 0 with srcAddr := 0xFFF } [] 1
     (srcWindow s .getBit).base + (srcWindow s .getBit).len > s.lastAddr.toNat + 1) ∧
    (let s := accepted { imageRegs 32 1 0 0 with srcAddr := 0xFFE } [] 4
     s.cfg.flags = 0b00 ∧ 0 < s.cfg.width.toNat * s.cfg.height.toNat ∧
       s.cfg.width.toNat * s.cfg.height.toNat ≤ 2 ^ 32 - 1 ∧
       (srcWindow s .compress).base + (srcWindow s .compress).len > s.lastAddr.toNat + 1) ∧
    (let s := accepted { imageRegs 32 1 0 0 with dstAddr := 0xFFE } [] 4
     (srcWindow s .compress).base + (srcWindow s .compress).len ≤ s.lastAddr.toNat + 1 ∧
       (dstWindow s .compress).base + (dstWindow s .compress).len > s.lastAddr.toNat + 1) ∧
    (let s := accepted { imageRegs 8 1 0 0 with dstAddr := 0x1001 } [] 4
     s.cfg.flags = 0b00 ∧ 0 < s.cfg.width.toNat * s.cfg.height.toNat ∧
       s.cfg.width.toNat * s.cfg.height.toNat ≤ 2 ^ 32 - 1 ∧
       (srcWindow s .compress).base + (srcWindow s .compress).len ≤ s.lastAddr.toNat + 1 ∧
       (dstWindow s .compress).base + (dstWindow s .compress).len > s.lastAddr.toNat + 1 ∧
       (dstWindow s .compress).len = 0) ∧
    (let s := accepted { imageRegs 16 1 1 1 with dstAddr := 0xFFF } [] 5
     s.cfg.flags = 0b01 ∧ 0 < s.cfg.width.toNat * s.cfg.height.toNat ∧
       s.cfg.width.toNat * s.cfg.height.toNat ≤ 2 ^ 32 - 1 ∧
       (srcWindow s .decompress).base + (srcWindow s .decompress).len ≤ s.lastAddr.toNat + 1 ∧
       (dstWindow s .decompress).base + (dstWindow s .decompress).len > s.lastAddr.toNat + 1) := by decide

theorem witness_WrongFlagsAreErrFormat :
    (imageRegs 16 1 1 0).flags ≠ 0b00 ∧ (imageRegs 2 2 3 1).flags ≠ 0b01 ∧ (imageRegs 2 2 0 1).flags ≠ 0b01 := by decide

/-- K15 and K16; D17. -/
theorem witness_BadAreaIsErrDimension :
    ((imageRegs 0 5 0 0).flags = 0b00 ∧ (imageRegs 0 5 0 0).width.toNat * (imageRegs 0 5 0 0).height.toNat = 0) ∧
    ((imageRegs 65536 65536 0 0).flags = 0b00 ∧
      2 ^ 32 - 1 < (imageRegs 65536 65536 0 0).width.toNat * (imageRegs 65536 65536 0 0).height.toNat) ∧
    ((imageRegs 0 1 1 1).flags = 0b01 ∧ (imageRegs 0 1 1 1).width.toNat * (imageRegs 0 1 1 1).height.toNat = 0) ∧
    (∃ t, exec .getBit busyGetBit = .next t) ∧ (∃ t, exec .setBit busyGetBit = .next t) :=
  ⟨by decide, by decide, by decide, ⟨_, rfl⟩, ⟨_, rfl⟩⟩

/-- K18, one shared byte at 0x100; D18. -/
theorem witness_OverlappingWindowsAreErrOverlap :
    (let s := accepted { imageRegs 32 1 0 0 with dstAddr := 0xFE } [] 4
     s.cfg.flags = 0b00 ∧ 0 < s.cfg.width.toNat * s.cfg.height.toNat ∧
       s.cfg.width.toNat * s.cfg.height.toNat ≤ 2 ^ 32 - 1 ∧
       (srcWindow s .compress).base + (srcWindow s .compress).len ≤ s.lastAddr.toNat + 1 ∧
       (dstWindow s .compress).base + (dstWindow s .compress).len ≤ s.lastAddr.toNat + 1 ∧
       (srcWindow s .compress).contains 0x100 ∧ (dstWindow s .compress).contains 0x100) ∧
    (let s := accepted { imageRegs 16 1 1 1 with dstAddr := 0x100 } [] 5
     s.cfg.flags = 0b01 ∧ (srcWindow s .decompress).contains 0x100 ∧ (dstWindow s .decompress).contains 0x100) := by
  decide

/-- K3: an accepted COMPRESS of 16 pixels. -/
theorem busyCompress_accepts : CompressAccepts busyCompress :=
  ⟨by decide, by decide, by decide, by decide, by decide, by decide⟩

/-- K3: T = P - 1. -/
theorem witness_CompressWritesTheRunTokens :
    busyCompress.mem.wf ∧ CompressAccepts busyCompress ∧
      (tokensOf (pixelBits busyCompress)).length ≤ packedLen busyCompress - 1 :=
  ⟨by decide, busyCompress_accepts, by decide⟩

/-- K26: T = P. -/
theorem witness_CompressOverflowAborts :
    let s := { busyCompress with mem := [(0x101, 0x01)] }
    s.mem.wf ∧ CompressAccepts s ∧ packedLen s ≤ (tokensOf (pixelBits s)).length :=
  ⟨by decide, ⟨by decide, by decide, by decide, by decide, by decide, by decide⟩, by decide⟩

/-- T = P - 1 = 1, and T = P = 2. -/
theorem witness_CompressCompletesExactlyBelowP :
    CompressAccepts busyCompress ∧ (tokensOf (pixelBits busyCompress)).length = packedLen busyCompress - 1 ∧
    (let s := { busyCompress with mem := [(0x101, 0x01)] }
     CompressAccepts s ∧ (tokensOf (pixelBits s)).length = packedLen s) :=
  ⟨busyCompress_accepts, by decide, ⟨by decide, by decide, by decide, by decide, by decide, by decide⟩, by decide⟩

/-- A run of 129: two adjacent tokens of one value. -/
theorem witness_RunSegmentationLaws :
    [true] ≠ [] ∧
    runsOf (List.replicate 129 false) = [] ++ (false, 128) :: (false, 1) :: [] ∧ (false, 128).1 = (false, 1).1 :=
  ⟨by decide, by rfl, rfl⟩

/-- An 8 x 1 COMPRESS with this DST_ADDR. -/
def eightPixels (dst : Word) : State := accepted { imageRegs 8 1 0 0 with dstAddr := dst } [] 4

/-- K2: 8 pixels, with DST_ADDR at the end of the memory, and one past it. -/
theorem witness_EightPixelsOverflow :
    (let s := eightPixels 0x1000
     s.cfg.flags = 0b00 ∧ 0 < s.cfg.width.toNat * s.cfg.height.toNat ∧ s.cfg.width.toNat * s.cfg.height.toNat ≤ 8 ∧
       s.cfg.srcAddr.toNat + packedLen s ≤ s.lastAddr.toNat + 1 ∧ s.cfg.dstAddr.toNat ≤ s.lastAddr.toNat + 1) ∧
    (let s := eightPixels 0x1001
     s.cfg.flags = 0b00 ∧ 0 < s.cfg.width.toNat * s.cfg.height.toNat ∧ s.cfg.width.toNat * s.cfg.height.toNat ≤ 8 ∧
       s.cfg.srcAddr.toNat + packedLen s ≤ s.lastAddr.toNat + 1 ∧ s.lastAddr.toNat + 1 < s.cfg.dstAddr.toNat) := by decide

/-- K21 with 16 pixels, 0101…; and one pixel, which has no two adjacent ones. -/
theorem witness_AlternatingBitmapOverflows :
    (let s := { busyCompress with mem := [(0x100, 0x55), (0x101, 0x55)] }
     CompressAccepts s ∧ ∀ i < 16, i + 1 < s.cfg.width.toNat * s.cfg.height.toNat →
       s.mem.getBit s.cfg.srcAddr.toNat i ≠ s.mem.getBit s.cfg.srcAddr.toNat (i + 1)) ∧
    (let s := accepted (imageRegs 1 1 0 0) [] 4
     CompressAccepts s ∧ ∀ i, ¬ i + 1 < s.cfg.width.toNat * s.cfg.height.toNat) :=
  ⟨⟨⟨by decide, by decide, by decide, by decide, by decide, by decide⟩, by decide⟩,
    ⟨by decide, by decide, by decide, by decide, by decide, by decide⟩, fun _ => Nat.not_lt.2 (Nat.le_add_left 1 _)⟩

/-- K10 and K11: FF F0 and FF FF as a 12 x 1 bitmap, at other addresses, with other unused registers. -/
theorem witness_CompressDependsOnPixelsOnly :
    let s := accepted (imageRegs 12 1 0 0) [(0x100, 0xFF), (0x101, 0xF0)] 4
    let u := accepted { imageRegs 12 1 0 7 with srcAddr := 0x300, dstAddr := 0xFFF, bitIndex := 5, bitValue := 1 }
      [(0x300, 0xFF), (0x301, 0xFF)] 4
    s.mem.wf ∧ u.mem.wf ∧ CompressAccepts s ∧ CompressAccepts u ∧ s.cfg.width = u.cfg.width ∧
      s.cfg.height = u.cfg.height ∧ s.out = u.out ∧
      (∀ i, i < s.cfg.width.toNat * s.cfg.height.toNat →
        s.mem.getBit s.cfg.srcAddr.toNat i = u.mem.getBit u.cfg.srcAddr.toNat i) ∧
      ∃ t, exec .compress s = .next t ∧ t.err = .ok ∧ 0 < t.out.result.toNat :=
  ⟨by decide, by decide, ⟨by decide, by decide, by decide, by decide, by decide, by decide⟩,
    ⟨by decide, by decide, by decide, by decide, by decide, by decide⟩, by decide, by decide, by decide, by decide,
    _, rfl, by decide, by decide⟩

/-- An accepted DECOMPRESS of a 4 x 1 image. -/
def fourPixels (mem : Memory) (count : Nat) : State := accepted (imageRegs 4 1 1 count) mem 5

/-- D3: 80 01 80. -/
theorem witness_DecompressWritesTheBitmap :
    let s := fourPixels [(0x100, 0x80), (0x101, 0x01), (0x102, 0x80)] 3
    s.mem.wf ∧ DecompressAccepts s ∧
      (expand (sourceTokens s)).length = s.cfg.width.toNat * s.cfg.height.toNat :=
  ⟨by decide, ⟨by decide, by decide, by decide, by decide, by decide, by decide⟩, by decide⟩

/-- D4: 81 01 80; token 2 overruns, the bits before it being all four. -/
theorem witness_DecompressOverrun :
    let s := fourPixels [(0x100, 0x81), (0x101, 0x01), (0x102, 0x80)] 3
    s.mem.wf ∧ DecompressAccepts s ∧ 2 < s.cfg.srcSize.toNat ∧
      (expand ((sourceTokens s).take 2)).length ≤ s.cfg.width.toNat * s.cfg.height.toNat ∧
      s.cfg.width.toNat * s.cfg.height.toNat < (expand ((sourceTokens s).take 3)).length :=
  ⟨by decide, ⟨by decide, by decide, by decide, by decide, by decide, by decide⟩, by decide, by decide, by decide⟩

/-- One bit short, and D6: no token at all. -/
theorem witness_DecompressUnderrun :
    (let s := fourPixels [(0x100, 0x82)] 1
     s.mem.wf ∧ DecompressAccepts s ∧ (expand (sourceTokens s)).length < s.cfg.width.toNat * s.cfg.height.toNat) ∧
    (let s := fourPixels [] 0
     s.mem.wf ∧ DecompressAccepts s ∧ (expand (sourceTokens s)).length < s.cfg.width.toNat * s.cfg.height.toNat) :=
  ⟨⟨by decide, ⟨by decide, by decide, by decide, by decide, by decide, by decide⟩, by decide⟩,
    ⟨by decide, ⟨by decide, by decide, by decide, by decide, by decide, by decide⟩, by decide⟩⟩

theorem witness_DecompressCompletesExactlyOnSumN : DecompressAccepts (fourPixels [(0x100, 0x03)] 1) :=
  ⟨by decide, by decide, by decide, by decide, by decide, by decide⟩

/-- K10, then D22: 8B back to FF F0. -/
theorem witness_DecompressUndoesCompress :
    let s := accepted (imageRegs 12 1 0 0) [(0x100, 0xFF), (0x101, 0xF0)] 4
    let u := { accepted { imageRegs 12 1 1 1 with srcAddr := 0x200, dstAddr := 0x300 } [(0x200, 0x8B)] 5 with
      lastAddr := 0xFFF }
    s.mem.wf ∧ CompressAccepts s ∧ u.mem.wf ∧ DecompressAccepts u ∧ u.cfg.width = s.cfg.width ∧
    u.cfg.height = s.cfg.height ∧
    ∃ t, exec .compress s = .next t ∧ t.err = .ok ∧ u.cfg.srcSize = t.out.outCsize ∧
      ∀ k < t.out.outCsize.toNat,
        u.mem.read (u.cfg.srcAddr.toNat + k) = t.mem.read (s.cfg.dstAddr.toNat + k) :=
  ⟨by decide, ⟨by decide, by decide, by decide, by decide, by decide, by decide⟩, by decide,
    ⟨by decide, by decide, by decide, by decide, by decide, by decide⟩, by decide, by decide,
    _, rfl, by decide, by decide, by decide⟩

/-- The last token of 12 bits, filling the image exactly. -/
theorem witness_RunTokenAppendsItsRun :
    (decoding 1 4).mem.wf ∧ (decoding 1 4).seq = .decoding { k := 1, pos := 4 } ∧
    decoderReady (decoding 1 4) { k := 1, pos := 4 } = true ∧ 1 < (decoding 1 4).cfg.srcSize.toNat ∧ 1 ≤ 8 ∧ 8 ≤ 128 ∧
    4 + 8 ≤ (decoding 1 4).cfg.width.toNat * (decoding 1 4).cfg.height.toNat ∧
    0x100 < (decoding 1 4).cfg.dstAddr.toNat := by decide

/-- One bit too many. -/
theorem witness_RunTokenOverruns :
    (decoding 1 4).mem.wf ∧ (decoding 1 4).seq = .decoding { k := 1, pos := 4 } ∧
    decoderReady (decoding 1 4) { k := 1, pos := 4 } = true ∧ 1 < (decoding 1 4).cfg.srcSize.toNat ∧ 1 ≤ 9 ∧ 9 ≤ 128 ∧
    (decoding 1 4).cfg.width.toNat * (decoding 1 4).cfg.height.toNat < 4 + 9 := by decide

/-- No command in progress, and one whose tokens are all read. -/
theorem witness_RunTokenNeedsDecompressInProgress :
    (∀ d, small.seq = .decoding d → ¬ (decoderReady small d = true ∧ d.k < small.cfg.srcSize.toNat)) ∧
    (∀ d, (decoding 2 12).seq = .decoding d →
      ¬ (decoderReady (decoding 2 12) d = true ∧ d.k < (decoding 2 12).cfg.srcSize.toNat)) := by
  refine ⟨fun d h => ?_, fun d h => ?_⟩
  · cases h
  · cases h
    decide

theorem witness_InstructionsKeepConfiguration :
    (∃ t, exec .setBit busyGetBit = .next t) ∧ (∃ t, exec .compress busyCompress = .next t) ∧
    (∃ t, exec (.run1 8) (decoding 1 4) = .next t) := ⟨⟨_, rfl⟩, ⟨_, rfl⟩, ⟨_, rfl⟩⟩

theorem witness_InstructionsWriteOnlyTheirDestination :
    (∃ t, exec .getBit busyGetBit = .next t) ∧ (∃ t, exec .packedBytes busyGetBit = .next t) ∧
    (∃ t, exec .decompress busyDecompress = .next t) := ⟨⟨_, rfl⟩, ⟨_, rfl⟩, ⟨_, rfl⟩⟩

/-- A command that ends OK, and one that ends in error. -/
theorem witness_InstructionsKeepOtherResults :
    (∃ t, exec .getBit busyGetBit = .next t ∧ t.phase = .idle ∧ t.err = .ok) ∧
    (∃ t, exec .compress busyGetBit = .next t ∧ t.phase = .idle ∧ t.err ≠ .ok) :=
  ⟨⟨_, rfl, by decide, by decide⟩, ⟨_, rfl, by decide, by decide⟩⟩

theorem witness_StepRunsTheLatchedCommand :
    busyCompress.resetIn = false ∧ nextTurn busyCompress = .core ∧ busyCompress.phase = .busy ∧
    busyCompress.seq = .off ∧ decodeCommand busyCompress.latchedCmd = .ok .compress := by decide

theorem witness_StepRunsTheNextToken :
    let s := { decoding 1 4 with turns := [.coreUnit] }
    s.resetIn = false ∧ nextTurn s = .coreUnit ∧ s.phase = .busy ∧ s.seq = .decoding { k := 1, pos := 4 } ∧
      1 < s.cfg.srcSize.toNat := by decide

theorem witness_PlacedInstructionRunsNext :
    State.reset.mem.wf ∧ decodeTableWord 32 4 = some .compress ∧ decodeTableWord 8 0xFF = some (.run1 128) ∧
    (decoding 1 4).mem.wf := by decide

theorem witness_IdleCoreRestsAndBusyFixesOperands :
    small.phase = .idle ∧ busyGetBit.phase = .busy ∧ busyGetBit.resetIn = false ∧ ∃ t, step busyGetBit = .next t :=
  ⟨by decide, by decide, by decide, _, rfl⟩

theorem witness_EveryAcceptedCommandCompletes :
    (busyGetBit.Inv ∧ busyGetBit.phase = .busy ∧ busyGetBit.resetIn = false ∧ nextTurn busyGetBit = .core) ∧
    (encoding.Inv ∧ encoding.phase = .busy ∧ encoding.resetIn = false ∧ nextTurn encoding = .core) ∧
    ((decoding 1 4).Inv ∧ (decoding 1 4).phase = .busy ∧ (decoding 1 4).resetIn = false ∧
      nextTurn (decoding 1 4) = .core) :=
  ⟨⟨busyGetBit_inv, by decide, by decide, by decide⟩, ⟨encoding_inv, by decide, by decide, by decide⟩,
    ⟨decoding_inv, by decide, by decide, by decide⟩⟩

/-- No turns left, and a list of turns in which the host polls with WAIT and the core is given one internal action only. -/
theorem witness_CoreIsEventuallyTaken :
    (busyGetBit.Inv ∧ busyGetBit.phase = .busy ∧ busyGetBit.resetIn = false ∧ .assertReset ∉ busyGetBit.program) ∧
    (let s := { encoding with turns := [.host, .coreUnit, .host], program := [.wait] }
     s.Inv ∧ s.phase = .busy ∧ s.resetIn = false ∧ .assertReset ∉ s.program) :=
  ⟨⟨busyGetBit_inv, by decide, by decide, by decide⟩,
    ⟨{ encoding_inv with }, by decide, by decide, by decide⟩⟩

/-- An action after which the command goes on, and one that ends it. -/
theorem witness_InternalActionsMakeUpTheCoreStep :
    (encoding.Inv ∧ encoding.phase = .busy ∧ ∃ t, coreUnit encoding = .next t ∧ t.phase = .busy) ∧
    (busyGetBit.Inv ∧ busyGetBit.phase = .busy ∧ ∃ t, coreUnit busyGetBit = .next t ∧ t.phase = .idle) :=
  ⟨⟨encoding_inv, by decide, _, rfl, by decide⟩, ⟨busyGetBit_inv, by decide, _, rfl, by decide⟩⟩

/-- The first byte of a source window and the last one of a destination window. -/
theorem witness_BusyIntervalIsForbidden :
    small.phase = .idle ∧
    (0x201#32).toNat < busyDecompress.lastAddr.toNat + 1 ∧
    (∃ w ∈ busyDecompress.unobserved, w.src.contains (0x100#32).toNat ∨ w.dst.contains (0x100#32).toNat) ∧
    (∃ w ∈ busyDecompress.unobserved, w.src.contains (0x201#32).toNat ∨ w.dst.contains (0x201#32).toNat) ∧
    busyGetBit.Inv ∧ busyGetBit.phase = .busy ∧ (runningSrc busyGetBit).contains (0x100#32).toNat :=
  ⟨by decide, by decide, by decide, by decide, busyGetBit_inv, by decide, by decide⟩

/-- The byte just past a destination window, and the last byte of memory. -/
theorem witness_HostMemoryWrite :
    busyDecompress.mem.wf ∧ (0xFFF#32).toNat < busyDecompress.lastAddr.toNat + 1 ∧
    (∀ w ∈ busyDecompress.unobserved, ¬ w.src.contains (0x202#32).toNat ∧ ¬ w.dst.contains (0x202#32).toNat) ∧
    (∀ w ∈ busyDecompress.unobserved, ¬ w.src.contains (0xFFF#32).toNat ∧ ¬ w.dst.contains (0xFFF#32).toNat) := by
  decide

/-- A destination byte, the bytes beside it, and a byte in both windows of a COMPRESS (K17). -/
theorem witness_HostMemoryRead :
    (0x201#32).toNat < busyDecompress.lastAddr.toNat + 1 ∧
    (∃ w ∈ busyDecompress.unobserved, w.dst.contains (0x201#32).toNat) ∧
    (∀ w ∈ busyDecompress.unobserved, ¬ w.dst.contains (0x202#32).toNat) ∧
    (∀ w ∈ busyDecompress.unobserved, ¬ w.dst.contains (0x100#32).toNat) ∧
    (let s := accepted { imageRegs 32 1 0 0 with dstAddr := 0x102 } [] 4
     ∃ w ∈ s.unobserved, w.dst.contains (0x102#32).toNat ∧ w.src.contains (0x102#32).toNat) := by decide

theorem witness_MissingAddressFaults : small.lastAddr.toNat + 1 ≤ (0x1000#32).toNat := by decide

theorem witness_WaitPollsStatus :
    ({ small with program := [.wait] } : State).program = .wait :: [] ∧
    ({ busyGetBit with program := [.wait] } : State).phase = .busy := by decide

theorem witness_ResetTakesPriority :
    ({ small with resetIn := true } : State).resetIn = true ∧ ({ small with resetIn := true } : State).phase = .idle ∧
    ({ busyGetBit with resetIn := true } : State).resetIn = true := by decide

/-- A COMPRESS abandoned, its first source byte. -/
theorem witness_ResetWhileBusyKeepsOtherBytes :
    busyCompress.phase = .busy ∧ busyCompress.latchedCmd ≠ 0x00000002 ∧ (runningSrc busyCompress).contains 0x100 ∧
    ¬ (runningDst busyCompress).contains 0x201 := by decide

/-- A step of the host, of the core, and of one internal action. -/
theorem witness_StepKeepsTheInvariant :
    (small.Inv ∧ ∃ t, step small = .next t) ∧ (busyGetBit.Inv ∧ ∃ t, step busyGetBit = .next t) ∧
    (encoding.Inv ∧ ∃ t, step encoding = .next t) ∧ (decoding 1 4).Inv :=
  ⟨⟨small_inv, _, rfl⟩, ⟨busyGetBit_inv, _, rfl⟩, ⟨encoding_inv, _, rfl⟩, decoding_inv⟩

end Sys2Proof.Tests
end

section
/-! PROOFS. The two endings of a command (00_scope.md R10). -/

namespace Sys2Proof.Machine

/-- Both endings leave an idle block with DONE set (00_scope.md R10): STATUS then depends on ERR alone. -/
theorem statusWord_of_idle_of_done {s : State} (hphase : s.phase = .idle) (hdone : s.done = true) :
    statusWord s = (0x2 : Word) ||| (s.err.number.setWidth 32 <<< (8 : Nat)) := by
  have hbusy : busyBit s = false := by simp [busyBit, hphase]
  simp [statusWord, hbusy, hdone]

theorem statusWord_raiseError (s : State) (code : ErrCode) (info : Word) :
    statusWord (raiseError s code info) = (0x2 : Word) ||| (code.number.setWidth 32 <<< (8 : Nat)) :=
  statusWord_of_idle_of_done (raiseError_phase s code info) (raiseError_done s code info)

theorem statusWord_completeOk (s : State) : statusWord (completeOk s) = 0x00000002 := by
  rw [statusWord_of_idle_of_done (completeOk_phase s) (completeOk_done s), completeOk_err]
  decide

/-- Settles O13: the two updates are the definitions of the endings, and each ends idle with DONE set. -/
theorem commandEndings : Obligations.CommandEndings := fun s code info =>
  ⟨rfl, rfl, statusWord_raiseError s code info, statusWord_completeOk s⟩

end Sys2Proof.Machine
end

section
/-! PROOFS. What a move of the core can do, in one form for instructions, core steps and internal actions: it ends the
command, or the command goes on (10_state.md R34, R38). -/

namespace Sys2Proof.Machine

/-- What the core may do to the memory: it keeps the canonical form and the memory's bound, and writes only the window. -/
structure MemoryChange (s : State) (w : Window) (m : Memory) : Prop where
  wf : s.mem.wf → m.wf
  bounded : s.mem.boundedBy (memBytes s) → m.boundedBy (memBytes s)
  outside : SameOutside w s.mem m

theorem MemoryChange.refl (s : State) (w : Window) : MemoryChange s w s.mem := ⟨id, id, fun _ _ => rfl⟩

theorem MemoryChange.trans {s : State} {w : Window} {m m' : Memory} (h1 : MemoryChange s w m)
    (h2 : MemoryChange { s with mem := m } w m') : MemoryChange s w m' :=
  ⟨h2.wf ∘ h1.wf, h2.bounded ∘ h1.bounded, h1.outside.trans h2.outside⟩

/-- `t` is `s` with its command ended, in error or OK (00_scope.md R10), its memory changed inside the window only. -/
inductive CommandEnds (s : State) (w : Window) : State → Prop
  | error {m : Memory} {draws : Nat} {code : ErrCode} {info : Word} (hcode : code ≠ .ok) (hmem : MemoryChange s w m) :
      CommandEnds s w (raiseError { s with mem := m, draws := draws } code info)
  | ok {m : Memory} {out : ResultRegs} (hinfo : out.errInfo = s.out.errInfo)
      (htext : out.outFlags = s.out.outFlags ∨ out.outFlags = flagsBitmap ∨ out.outFlags = flagsCompressed)
      (hmem : MemoryChange s w m) : CommandEnds s w (completeOk { s with mem := m, out := out })

/-- `t` is `s` with its command still running: only the hidden state, and the memory inside the window, have changed. -/
structure CommandGoesOn (s : State) (w : Window) (t : State) : Prop where
  busy : s.phase = .busy
  state : t = { s with mem := t.mem, seq := t.seq }
  ready : SequencerReady t
  memory : MemoryChange s w t.mem

theorem sequencerReady_encoding {s : State} {e : Encoder} (hs : s.seq = .encoding e) :
    SequencerReady s ↔ encoderReady s e = true := by
  rw [SequencerReady, hs]

theorem sequencerReady_decoding {s : State} {d : Decoder} (hs : s.seq = .decoding d) :
    SequencerReady s ↔ decoderReady s d = true := by
  rw [SequencerReady, hs]

section
variable {s t : State} {w : Window}

/-! ### What follows from each form -/

theorem CommandEnds.phase (h : CommandEnds s w t) : t.phase = .idle := by cases h <;> rfl

theorem CommandEnds.done (h : CommandEnds s w t) : t.done = true := by cases h <;> rfl

theorem CommandEnds.seq (h : CommandEnds s w t) : t.seq = .off := by cases h <;> rfl

theorem CommandEnds.memory (h : CommandEnds s w t) : MemoryChange s w t.mem := by
  cases h with
  | error _ hmem => exact hmem
  | ok _ _ hmem => exact hmem

/-- A command that ends in error leaves the other results as they were (10_state.md R27 to R29). -/
theorem CommandEnds.results_of_error (h : CommandEnds s w t) (he : t.err ≠ .ok) :
    t.out.result = s.out.result ∧ t.out.outFlags = s.out.outFlags ∧ t.out.outCsize = s.out.outCsize := by
  cases h with
  | error => exact ⟨rfl, rfl, rfl⟩
  | ok => exact absurd rfl he

/-- A command that ends OK leaves ERR_INFO as it was (10_state.md R30). -/
theorem CommandEnds.errInfo_of_ok (h : CommandEnds s w t) (he : t.err = .ok) : t.out.errInfo = s.out.errInfo := by
  cases h with
  | error hcode => exact absurd he hcode
  | ok hinfo => exact hinfo

/-- No command produces a text image (10_state.md R28, R32). -/
theorem CommandEnds.neverText (h : CommandEnds s w t) (hs : s.out.outFlags.getLsbD 1 = false) :
    t.out.outFlags.getLsbD 1 = false := by
  cases h with
  | error => exact hs
  | ok _ htext =>
    rw [completeOk_out]
    rcases htext with h | h | h <;> rw [h]
    · exact hs
    · decide
    · decide

/-- The configuration and LATCHED_CMD stay (10_state.md R38). -/
theorem CommandEnds.operands (h : CommandEnds s w t) :
    t.cfg = s.cfg ∧ t.latchedCmd = s.latchedCmd ∧ t.lastAddr = s.lastAddr := by
  cases h <;> exact ⟨rfl, rfl, rfl⟩

theorem CommandGoesOn.phase (h : CommandGoesOn s w t) : t.phase = .busy := by
  rw [h.state]
  exact h.busy

theorem CommandGoesOn.cfg (h : CommandGoesOn s w t) : t.cfg = s.cfg := by
  rw [h.state]

/-- An end after a change of the memory is an end. -/
theorem CommandEnds.after_change {m : Memory} (hm : MemoryChange s w m) (h : CommandEnds { s with mem := m } w t) :
    CommandEnds s w t := by
  cases h with
  | error hcode hmem => exact .error hcode (hm.trans hmem)
  | ok hinfo htext hmem => exact .ok hinfo htext (hm.trans hmem)

end

/-! ### The ends of the commands -/

theorem raiseError_ends (s : State) (w : Window) {code : ErrCode} (hcode : code ≠ .ok) (info : Word) :
    CommandEnds s w (raiseError s code info) :=
  .error hcode (.refl s w)

/-- GET_BIT and PACKED_BYTES write only RESULT. -/
theorem result_ends (s : State) (w : Window) (r : Word) :
    CommandEnds s w (completeOk { s with out := { s.out with result := r } }) :=
  .ok rfl (.inl rfl) (.refl s w)

/-- SET_BIT writes its one byte (20_memory.md R45), which an accepted index puts inside the source window. -/
theorem setBit_memoryChange {s : State} (ha : BitAccepts s) :
    MemoryChange s (dstWindow s .setBit) (s.mem.setBit (srcBase s) (bitIndex s) (bitValue s)) where
  wf h := Memory.setBit_wf h _ _ _
  bounded h := by
    have hin : srcBase s + srcLen s ≤ memBytes s := ha.srcIn
    have hrange : bitIndex s < 8 * srcLen s := ha.inRange
    exact Memory.write_bounded h (by omega) _
  outside a hout := by
    refine Memory.read_setBit_other _ _ ?_
    rintro rfl
    exact hout ⟨Nat.le_refl _, Nat.lt_succ_self _⟩

theorem compressEnd_ends {s : State} (ha : CompressAccepts s) {count : Nat} (hc : count ≤ capacity s)
    (rs : List (Bool × Nat)) : CommandEnds s (dstWindow s .compress) (compressEnd s count rs) := by
  have hmem : MemoryChange s (dstWindow s .compress) (compressEnd s count rs).mem :=
    ⟨fun h => compressEnd_wf h count rs, fun h => compressEnd_bounded h hc (compress_dstIn ha) rs,
      compressEnd_sameOutside s hc rs⟩
  by_cases hfit : count + rs.length ≤ capacity s
  · rw [compressEnd, if_pos hfit] at hmem ⊢
    exact .ok rfl (.inr (.inr rfl)) hmem
  · rw [compressEnd, if_neg hfit] at hmem ⊢
    exact .error (by decide) hmem

theorem lengthError_ends {s : State} (ha : DecompressAccepts s) {code : ErrCode} (hcode : code ≠ .ok) (info : Nat) :
    CommandEnds s (dstWindow s .decompress) (lengthError s code info) :=
  .error hcode ⟨fun h => lengthError_wf h code info, fun h => lengthError_bounded h (decompress_dstIn ha) code info,
    lengthError_sameOutside s code info⟩

theorem finishDecompress_ends {s : State} (ha : DecompressAccepts s) (d : Decoder) :
    CommandEnds s (dstWindow s .decompress) (finishDecompress s d) := by
  have hmem : MemoryChange s (dstWindow s .decompress) (finishDecompress s d).mem :=
    ⟨fun h => finishDecompress_wf h d, fun h => finishDecompress_bounded h (decompress_dstIn ha) d,
      finishDecompress_sameOutside s d⟩
  by_cases hshort : d.pos < area s
  · rw [finishDecompress, if_pos hshort]
    exact lengthError_ends ha (by decide) _
  · rw [finishDecompress, if_neg hshort] at hmem ⊢
    exact .ok rfl (.inr (.inl rfl)) hmem

/-- A run inside the image is written inside the destination window (20_memory.md R45). -/
theorem setBits_memoryChange {s : State} (ha : DecompressAccepts s) {pos len : Nat} (hp : pos + len ≤ area s) (v : Bool) :
    MemoryChange s (dstWindow s .decompress) (s.mem.setBits (dstBase s) pos len v) where
  wf h := Memory.setBits_wf h _ _ _ _
  bounded h := by
    have hin := decompress_dstIn ha
    have hfit := area_le_packedLen s
    exact Memory.setBits_bounded h _ fun j h1 h2 => by omega
  outside := setBits_sameOutside s v hp

theorem decompressEnd_ends {s : State} (ha : DecompressAccepts s) (d : Decoder) (ts : List Byte) :
    CommandEnds s (dstWindow s .decompress) (decompressEnd s d ts) := by
  induction ts generalizing s d with
  | nil => exact finishDecompress_ends ha d
  | cons t ts ih =>
    rw [decompressEnd]
    split
    · exact lengthError_ends ha (by decide) _
    · next hfit =>
      have hm := setBits_memoryChange ha (Nat.le_of_not_lt hfit) (tokenValue t)
      exact .after_change hm (ih (s := { s with mem := s.mem.setBits (dstBase s) d.pos (tokenLength t) (tokenValue t) })
        (decompressAccepts_congr (s := s) rfl rfl ha) _)

/-- A run token goes on to the next token, or ends the command in ERR_OVERRUN (42_rle_decode.md R88 to R90). -/
theorem runToken_goesOn_or_ends {s : State} {d : Decoder} (hr : decoderReady s d = true) (hk : d.k < srcLen s) (v : Bool)
    (len : Nat) :
    (∃ pos, (runToken v len s d).seq = .decoding { k := d.k + 1, pos := pos } ∧
      CommandGoesOn s (dstWindow s .decompress) (runToken v len s d)) ∨
    CommandEnds s (dstWindow s .decompress) (runToken v len s d) := by
  obtain ⟨hb, hd, ha, -, -⟩ := (decoderReady_iff s d).1 hr
  unfold runToken
  split
  · exact .inr (lengthError_ends ha (by decide) _)
  · next hfit =>
    refine .inl ⟨_, rfl, hb, rfl, ?_, setBits_memoryChange ha (Nat.le_of_not_lt hfit) v⟩
    rw [sequencerReady_decoding rfl, decoderReady_iff]
    exact ⟨hb, hd, decompressAccepts_congr (s := s) rfl rfl ha, hk, Nat.le_of_not_lt hfit⟩

/-- Every instruction that answers ends its command, or is a token after which the command goes on. -/
theorem exec_goesOn_or_ends {i : Instr} {s t : State} (h : exec i s = .next t) :
    (s.seq ≠ .off ∧ CommandGoesOn s (dstWindow s i) t) ∨ CommandEnds s (dstWindow s i) t := by
  rcases exec_cases h with ⟨c, info, hc, rfl⟩ | ⟨-, -, r, rfl⟩ | ⟨rfl, ha, rfl⟩ | ⟨-, r, rfl⟩ | ⟨rfl, ha, rfl⟩ |
    ⟨rfl, ha, rfl⟩ | ⟨v, len, d, rfl, hs, hr, hk, rfl⟩
  · exact .inr (raiseError_ends s _ hc info)
  · exact .inr (result_ends s _ r)
  · exact .inr (.ok rfl (.inl rfl) (setBit_memoryChange ha))
  · exact .inr (result_ends s _ r)
  · exact .inr (compressEnd_ends ha (Nat.zero_le _) _)
  · exact .inr (decompressEnd_ends ha _ _)
  · have hw : dstWindow s (if v then .run1 len else .run0 len) = dstWindow s .decompress := by cases v <;> rfl
    rw [hw]
    exact (runToken_goesOn_or_ends hr hk v len).imp (fun ⟨_, _, hgo⟩ => ⟨by simp [hs], hgo⟩) id

/-! ### Internal actions -/

theorem startCompress_goesOn_or_ends {s : State} (hb : s.phase = .busy)
    (hd : decodeCommand s.latchedCmd = .ok .compress) :
    (∃ e, e.i = 1 ∧ (startCompress s).seq = .encoding e ∧
      CommandGoesOn s (dstWindow s .compress) (startCompress s)) ∨
    CommandEnds s (dstWindow s .compress) (startCompress s) := by
  cases hc : compressCheck s with
  | some p =>
    rw [startCompress, hc]
    exact .inr (raiseError_ends s _ (codecCheck_code hc) _)
  | none =>
    have ha := (compressCheck_none_iff s).1 hc
    rw [startCompress, hc]
    refine .inl ⟨_, rfl, rfl, hb, rfl, ?_, .refl s _⟩
    rw [sequencerReady_encoding rfl, encoderReady_iff]
    exact ⟨hb, hd, compressAccepts_congr (s := s) rfl rfl ha, Nat.le_refl 1, ha.areaPos, Nat.le_refl 1,
      (by decide : 1 ≤ Config.maxRun), Nat.zero_le _⟩

theorem startDecompress_goesOn_or_ends {s : State} (hb : s.phase = .busy)
    (hd : decodeCommand s.latchedCmd = .ok .decompress) :
    (∃ d, d.k = 0 ∧ (startDecompress s).seq = .decoding d ∧
      CommandGoesOn s (dstWindow s .decompress) (startDecompress s)) ∨
    CommandEnds s (dstWindow s .decompress) (startDecompress s) := by
  cases hc : decompressCheck s with
  | some p =>
    rw [startDecompress, hc]
    exact .inr (raiseError_ends s _ (codecCheck_code hc) _)
  | none =>
    have ha := (decompressCheck_none_iff s).1 hc
    rw [startDecompress, hc]
    refine .inl ⟨_, rfl, rfl, hb, rfl, ?_, .refl s _⟩
    rw [sequencerReady_decoding rfl, decoderReady_iff]
    exact ⟨hb, hd, decompressAccepts_congr (s := s) rfl rfl ha, Nat.zero_le _, Nat.zero_le _⟩

/-- A token written below the capacity is written inside the destination window (41_rle_encode.md R81). -/
theorem emit_memoryChange {s : State} (ha : CompressAccepts s) {count : Nat} (hc : count < capacity s) (v : Byte) :
    MemoryChange s (dstWindow s .compress) (s.mem.write (dstBase s + count) v) where
  wf h := Memory.write_wf h _ _
  bounded h := by
    have hin := compress_dstIn ha
    exact Memory.write_bounded h (by omega) _
  outside a hout := by
    refine Memory.read_write_other _ _ ?_
    rintro rfl
    exact hout ⟨Nat.le_add_right _ _, Nat.add_lt_add_left hc _⟩

theorem encodeUnit_goesOn_or_ends {s : State} {e : Encoder} (hr : encoderReady s e = true) :
    (∃ e', e'.i = e.i + 1 ∧ e.i < area s ∧ (encodeUnit s e).seq = .encoding e' ∧
      CommandGoesOn s (dstWindow s .compress) (encodeUnit s e)) ∨
    CommandEnds s (dstWindow s .compress) (encodeUnit s e) := by
  obtain ⟨hb, hd, ha, hi, -, hlen, -, hcount⟩ := (encoderReady_iff s e).1 hr
  rcases encodeUnit_cases s e with ⟨hlt, hmax, h⟩ | ⟨hlt, hc, h⟩ | ⟨-, hc, h⟩ | ⟨hc, h⟩ <;> rw [h]
  · refine .inl ⟨_, rfl, hlt, rfl, hb, rfl, ?_, .refl s _⟩
    rw [sequencerReady_encoding rfl, encoderReady_iff]
    exact ⟨hb, hd, compressAccepts_congr (s := s) rfl rfl ha, Nat.le_add_left 1 _, hlt, Nat.le_add_left 1 _, hmax, hcount⟩
  · refine .inl ⟨_, rfl, hlt, rfl, hb, rfl, ?_, emit_memoryChange ha hc _⟩
    rw [sequencerReady_encoding rfl, encoderReady_iff]
    exact ⟨hb, hd, compressAccepts_congr (s := s) rfl rfl ha, Nat.le_add_left 1 _, hlt, Nat.le_refl 1,
      (by decide : 1 ≤ Config.maxRun), hc⟩
  · exact .inr (.ok rfl (.inr (.inr rfl)) (emit_memoryChange ha hc _))
  · rw [overflowAbort_eq_compressEnd (rs := [(e.v, e.len)]) (Nat.le_antisymm hcount hc) (Nat.le_refl 1)]
    exact .inr (compressEnd_ends ha hcount _)

theorem decodeUnit_goesOn_or_ends {s : State} {d : Decoder} (hr : decoderReady s d = true) :
    (∃ pos, d.k < srcLen s ∧ (decodeUnit s d).seq = .decoding { k := d.k + 1, pos := pos } ∧
      CommandGoesOn s (dstWindow s .decompress) (decodeUnit s d)) ∨
    CommandEnds s (dstWindow s .decompress) (decodeUnit s d) := by
  obtain ⟨-, -, ha, -, -⟩ := (decoderReady_iff s d).1 hr
  unfold decodeUnit
  split
  · next hk => exact (runToken_goesOn_or_ends hr hk _ _).imp (fun ⟨pos, hgo⟩ => ⟨pos, hk, hgo⟩) id
  · exact .inr (finishDecompress_ends ha d)

end Sys2Proof.Machine
end

section
/-! PROOFS. The core step ends the command, and an internal action is a part of it (10_state.md R34, R38). -/

namespace Sys2Proof.Machine

section
variable {s : State}

theorem runningDst_eq {i : Instr} (hd : decodeCommand s.latchedCmd = .ok i) : runningDst s = dstWindow s i := by
  rw [runningDst, hd]

/-- What is in progress: nothing yet, a COMPRESS or a DECOMPRESS. -/
theorem sequencerReady_cases (h : SequencerReady s) :
    s.seq = .off ∨ (∃ e, s.seq = .encoding e ∧ encoderReady s e = true) ∨
      (∃ d, s.seq = .decoding d ∧ decoderReady s d = true) := by
  cases hs : s.seq with
  | off => exact .inl rfl
  | encoding e => exact .inr (.inl ⟨e, rfl, (sequencerReady_encoding hs).1 h⟩)
  | decoding d => exact .inr (.inr ⟨d, rfl, (sequencerReady_decoding hs).1 h⟩)

/-! ### The core step -/

/-- The command in LATCHED_CMD, defined or not, run from its beginning. -/
theorem runLatched_ends (hs : s.seq = .off) : ∃ t, runLatched s = .next t ∧ CommandEnds s (runningDst s) t := by
  cases hd : decodeCommand s.latchedCmd with
  | error err =>
    refine ⟨raiseError s .opcode s.latchedCmd, ?_, raiseError_ends s _ (by decide) _⟩
    rw [runLatched, hd]
    rfl
  | ok i =>
    obtain ⟨t, ht⟩ := exec_command_next hd s
    refine ⟨t, ?_, ?_⟩
    · rw [runLatched, hd]
      exact ht
    · rw [runningDst_eq hd]
      exact (exec_goesOn_or_ends ht).resolve_left fun hgo => hgo.1 hs

/-- The core step of a command, begun or not, ends it (10_state.md R38). -/
theorem coreStep_ends (hb : s.phase = .busy) (h : SequencerReady s) :
    ∃ t, coreStep s = .next t ∧ CommandEnds s (runningDst s) t := by
  rcases sequencerReady_cases h with hs | ⟨e, hs, hr⟩ | ⟨d, hs, hr⟩
  · rw [coreStep_off hb hs]
    exact runLatched_ends hs
  · obtain ⟨-, hd, ha, -, -, -, -, hcount⟩ := (encoderReady_iff s e).1 hr
    rw [coreStep, hb, hs, runningDst_eq hd]
    exact ⟨_, resumeCompress_eq hs hr, compressEnd_ends ha hcount _⟩
  · obtain ⟨-, hd, ha, -, -⟩ := (decoderReady_iff s d).1 hr
    rw [coreStep, hb, hs, runningDst_eq hd]
    exact ⟨_, resumeDecompress_eq hs hr, decompressEnd_ends ha d _⟩

/-! ### One internal action -/

/-- What an internal action from `s` to `t` is to the core step: where the command goes on, the core step from `t` is the
rest of the one from `s`; where it ends, the action was all that was left. -/
inductive UnitOutcome (s t : State) : Prop
  | goesOn (h : CommandGoesOn s (runningDst s) t) (hrest : coreStep t = coreStep s) : UnitOutcome s t
  | ends (h : CommandEnds s (runningDst s) t) (hwhole : coreStep s = .next t) : UnitOutcome s t

/-- The core step of a COMPRESS in progress in `t`, after an action of it. -/
theorem coreStep_of_encoding {t : State} {e : Encoder} {w : Window} (hs : t.seq = .encoding e)
    (hgo : CommandGoesOn s w t) : coreStep t = .next (encodeLoop (area s - e.i + 1) t) := by
  rw [coreStep_encoding hs ((sequencerReady_encoding hs).1 hgo.ready), area_congr hgo.cfg]

/-- The core step of a DECOMPRESS in progress in `t`, after an action of it. -/
theorem coreStep_of_decoding {t : State} {d : Decoder} {w : Window} (hs : t.seq = .decoding d)
    (hgo : CommandGoesOn s w t) : coreStep t = .next (decodeLoop (srcLen s - d.k + 1) t) := by
  rw [coreStep_decoding hs ((sequencerReady_decoding hs).1 hgo.ready), srcLen_congr hgo.cfg]

/-- Entering the loop of a COMPRESS (41_rle_encode.md R79). -/
theorem startCompress_outcome (hb : s.phase = .busy) (hs : s.seq = .off)
    (hd : decodeCommand s.latchedCmd = .ok .compress) : UnitOutcome s (startCompress s) := by
  have hstep : coreStep s = .next (encodeLoop (area s) (startCompress s)) := by
    rw [coreStep_off hb hs, runLatched, hd]
    rfl
  rcases startCompress_goesOn_or_ends hb hd with ⟨e, hi, hseq, hgo⟩ | hend
  · obtain ⟨-, -, ha, -⟩ := (encoderReady_iff _ e).1 ((sequencerReady_encoding hseq).1 hgo.ready)
    have hpos : 0 < area s := area_congr hgo.cfg ▸ ha.areaPos
    refine .goesOn (runningDst_eq hd ▸ hgo) ?_
    rw [hstep, coreStep_of_encoding hseq hgo, hi, Nat.sub_add_cancel hpos]
  · refine .ends (runningDst_eq hd ▸ hend) ?_
    rw [hstep, encodeLoop_off hend.seq]

/-- Entering the loop of a DECOMPRESS (42_rle_decode.md R87). -/
theorem startDecompress_outcome (hb : s.phase = .busy) (hs : s.seq = .off)
    (hd : decodeCommand s.latchedCmd = .ok .decompress) : UnitOutcome s (startDecompress s) := by
  have hstep : coreStep s = .next (decodeLoop (srcLen s + 1) (startDecompress s)) := by
    rw [coreStep_off hb hs, runLatched, hd]
    rfl
  rcases startDecompress_goesOn_or_ends hb hd with ⟨d, hk, hseq, hgo⟩ | hend
  · refine .goesOn (runningDst_eq hd ▸ hgo) ?_
    rw [hstep, coreStep_of_decoding hseq hgo, hk, Nat.sub_zero]
  · refine .ends (runningDst_eq hd ▸ hend) ?_
    rw [hstep, decodeLoop_off hend.seq]

/-- One more bit of a COMPRESS, or its end. -/
theorem encodeUnit_outcome {e : Encoder} (hs : s.seq = .encoding e) (hr : encoderReady s e = true) :
    UnitOutcome s (encodeUnit s e) := by
  obtain ⟨-, hd, -⟩ := (encoderReady_iff s e).1 hr
  have hstep : coreStep s = .next (encodeLoop (area s - e.i) (encodeUnit s e)) := by
    rw [coreStep_encoding hs hr, encodeLoop_succ hs]
  rcases encodeUnit_goesOn_or_ends hr with ⟨e', hi, hlt, hseq, hgo⟩ | hend
  · refine .goesOn (runningDst_eq hd ▸ hgo) ?_
    have hfuel : area s - e'.i + 1 = area s - e.i := by omega
    rw [hstep, coreStep_of_encoding hseq hgo, hfuel]
  · refine .ends (runningDst_eq hd ▸ hend) ?_
    rw [hstep, encodeLoop_off hend.seq]

/-- One more token of a DECOMPRESS, or its end. -/
theorem decodeUnit_outcome {d : Decoder} (hs : s.seq = .decoding d) (hr : decoderReady s d = true) :
    UnitOutcome s (decodeUnit s d) := by
  obtain ⟨-, hd, -⟩ := (decoderReady_iff s d).1 hr
  have hstep : coreStep s = .next (decodeLoop (srcLen s - d.k) (decodeUnit s d)) := by
    rw [coreStep_decoding hs hr, decodeLoop_succ hs]
  rcases decodeUnit_goesOn_or_ends hr with ⟨pos, hlt, hseq, hgo⟩ | hend
  · refine .goesOn (runningDst_eq hd ▸ hgo) ?_
    have hfuel : srcLen s - (d.k + 1) + 1 = srcLen s - d.k := by omega
    rw [hstep, coreStep_of_decoding hseq hgo, hfuel]
  · refine .ends (runningDst_eq hd ▸ hend) ?_
    rw [hstep, decodeLoop_off hend.seq]

/-- A command without a loop, and an undefined word, is run whole by its first action. -/
theorem beginLatched_eq_runLatched (hc : decodeCommand s.latchedCmd ≠ .ok .compress)
    (hd : decodeCommand s.latchedCmd ≠ .ok .decompress) : beginLatched s = runLatched s := by
  unfold beginLatched runLatched
  split
  · exact absurd ‹_› hc
  · exact absurd ‹_› hd
  · next h => rw [h]
  · next h => rw [h]

/-- The first internal action of a command. -/
theorem beginLatched_answers (hb : s.phase = .busy) (hs : s.seq = .off) :
    ∃ t, beginLatched s = .next t ∧ UnitOutcome s t := by
  by_cases hc : decodeCommand s.latchedCmd = .ok .compress
  · exact ⟨_, by rw [beginLatched, hc], startCompress_outcome hb hs hc⟩
  by_cases hd : decodeCommand s.latchedCmd = .ok .decompress
  · exact ⟨_, by rw [beginLatched, hd], startDecompress_outcome hb hs hd⟩
  obtain ⟨t, ht, hend⟩ := runLatched_ends hs
  exact ⟨t, by rw [beginLatched_eq_runLatched hc hd, ht], .ends hend (by rw [coreStep_off hb hs, ht])⟩

/-- Every internal action answers a state, and is a part of the core step. -/
theorem coreUnit_answers (hb : s.phase = .busy) (h : SequencerReady s) :
    ∃ t, coreUnit s = .next t ∧ UnitOutcome s t := by
  rcases sequencerReady_cases h with hs | ⟨e, hs, hr⟩ | ⟨d, hs, hr⟩
  · rw [coreUnit_off hb hs]
    exact beginLatched_answers hb hs
  · exact ⟨_, coreUnit_encoding hs hr, encodeUnit_outcome hs hr⟩
  · exact ⟨_, coreUnit_decoding hs hr, decodeUnit_outcome hs hr⟩

end

/-- Settles O50: an internal action that goes on leaves the rest of the core step, one that ends is all that was left. -/
theorem internalActionsMakeUpTheCoreStep : Obligations.InternalActionsMakeUpTheCoreStep := by
  intro s hinv hb
  obtain ⟨t, ht, hout⟩ := coreUnit_answers hb hinv.seqReady
  refine ⟨t, ht, ?_⟩
  cases hout with
  | goesOn hgo hrest => exact ⟨fun _ => hrest, fun hidle => by simp [hgo.phase] at hidle⟩
  | ends hend hwhole => exact ⟨fun hbusy => by simp [hend.phase] at hbusy, fun _ => hwhole⟩

theorem step_of_core {s : State} (hreset : s.resetIn = false) (hturn : nextTurn s = .core) :
    step s = coreStep (takeTurn s) := by
  rw [step, hreset, hturn]
  rfl

/-- Settles O48: the core step ends the command, and acceptance had cleared the results (10_state.md R37). -/
theorem everyAcceptedCommandCompletes : Obligations.EveryAcceptedCommandCompletes := by
  intro s hinv hb hreset hturn
  obtain ⟨t, ht, hend⟩ := coreStep_ends (s := takeTurn s) hb hinv.seqReady
  obtain ⟨hcfg, hlatched, -⟩ := hend.operands
  obtain ⟨-, -, hzero⟩ := hinv.busyClear hb
  refine ⟨t, (step_of_core hreset hturn).trans ht, hend.phase, hend.done, hend.seq, hcfg, hlatched, fun herr => ?_,
    hend.memory.outside⟩
  have hkept := hend.results_of_error herr
  rw [takeTurn_out, hzero] at hkept
  exact hkept

end Sys2Proof.Machine
end

section
/-! PROOFS. The invariant: it holds at reset, and every move of every agent keeps it. -/

namespace Sys2Proof.Machine

theorem resultZero_neverText : ResultRegs.zero.outFlags.getLsbD 1 = false := by decide

theorem sequencerReady_off {s : State} (hs : s.seq = .off) : SequencerReady s := by
  rw [SequencerReady, hs]
  trivial

/-- Settles O59: at reset the memory is empty, the block idle and every result 0. -/
theorem resetMeetsTheInvariant : Obligations.ResetMeetsTheInvariant where
  memWf := ⟨.nil, by simp [State.reset]⟩
  memBound := by simp [State.reset]
  busyClear := nofun
  freshClear _ := ⟨rfl, rfl⟩
  errorClear h := absurd rfl h
  okInfo _ := rfl
  neverText := resultZero_neverText
  idleSeq _ := rfl
  seqReady := sequencerReady_off rfl
  busyOpen := nofun

section
variable {s t : State} {w : Window}

/-! ### The core -/

/-- The end of a command: acceptance had cleared the results, and the end wrote what its code allows. -/
theorem CommandEnds.inv (hend : CommandEnds s w t) (h : s.Inv) (hb : s.phase = .busy) : t.Inv := by
  obtain ⟨-, -, hlast⟩ := hend.operands
  obtain ⟨-, -, hzero⟩ := h.busyClear hb
  have hbytes : memBytes t = memBytes s := by rw [memBytes, memBytes, hlast]
  exact {
    memWf := hend.memory.wf h.memWf
    memBound := hbytes ▸ hend.memory.bounded h.memBound
    busyClear := by simp [hend.phase]
    freshClear := by simp [hend.done]
    errorClear := fun herr => by
      have hkept := hend.results_of_error herr
      rw [hzero] at hkept
      exact hkept
    okInfo := fun hok => by rw [hend.errInfo_of_ok hok, hzero]; rfl
    neverText := hend.neverText h.neverText
    idleSeq := fun _ => hend.seq
    seqReady := sequencerReady_off hend.seq
    busyOpen := by simp [hend.phase] }

/-- A command that goes on changes only the hidden state and the memory. -/
theorem CommandGoesOn.inv (hgo : CommandGoesOn s w t) (h : s.Inv) : t.Inv := by
  obtain ⟨hb, hstate, hready, hmem⟩ := hgo
  rw [hstate] at hready ⊢
  exact { h with
    memWf := hmem.wf h.memWf
    memBound := hmem.bounded h.memBound
    idleSeq := fun hidle => by simp [hb] at hidle
    seqReady := hready }

theorem coreStep_inv (h : s.Inv) (ht : coreStep s = .next t) : t.Inv := by
  cases hphase : s.phase with
  | idle =>
    rw [coreStep, hphase] at ht
    cases ht
    exact h
  | busy =>
    obtain ⟨u, hu, hend⟩ := coreStep_ends hphase h.seqReady
    cases hu.symm.trans ht
    exact hend.inv h hphase

theorem coreUnit_inv (h : s.Inv) (ht : coreUnit s = .next t) : t.Inv := by
  cases hphase : s.phase with
  | idle =>
    rw [coreUnit, hphase] at ht
    cases ht
    exact h
  | busy =>
    obtain ⟨u, hu, hout⟩ := coreUnit_answers hphase h.seqReady
    cases hu.symm.trans ht
    cases hout with
    | goesOn hgo => exact hgo.inv h
    | ends hend => exact hend.inv h hphase

/-! ### The host -/

/-- A read of STATUS ends BUSY intervals only where no command runs. -/
theorem observeStatus_inv (h : s.Inv) : (observeStatus s).Inv := by
  unfold observeStatus
  split
  · exact h
  · next hidle => exact { h with busyOpen := fun hb => by simp [hidle] at hb }

/-- While IDLE the invariant says nothing of the configuration registers. -/
theorem cfg_inv (h : s.Inv) (hidle : s.phase = .idle) (cfg : ConfigRegs) : ({ s with cfg := cfg } : State).Inv :=
  { h with
    seqReady := sequencerReady_off (h.idleSeq hidle)
    busyOpen := fun hb => by simp [hidle] at hb }

/-- Acceptance clears STATUS and the results, and opens the command's BUSY interval (10_state.md R37). -/
theorem acceptFromHost_inv (h : s.Inv) (c : Word) : (acceptFromHost s c).Inv where
  memWf := h.memWf
  memBound := h.memBound
  busyClear _ := ⟨rfl, rfl, rfl⟩
  freshClear _ := ⟨rfl, rfl⟩
  errorClear herr := absurd rfl herr
  okInfo _ := rfl
  neverText := resultZero_neverText
  idleSeq _ := rfl
  seqReady := sequencerReady_off rfl
  busyOpen _ := List.mem_cons_self

theorem writeReg_inv (h : s.Inv) (r : Reg) (c : Word) : (writeReg s r c).Inv := by
  unfold writeReg
  split
  · exact h
  · next hidle =>
    cases r with
    | cmd => exact acceptFromHost_inv h c
    | width | height | flags | srcAddr | srcSize | dstAddr | bitIndex | bitValue => exact cfg_inv h hidle _
    | status | result | outFlags | outCsize | errInfo | reserved38 | reserved3C => exact h

/-- The values the host has read are no part of the invariant. -/
theorem seen_inv (h : s.Inv) (seen : List Seen) : ({ s with seen := seen } : State).Inv := { h with }

theorem hostRegRead_inv {offset bytes : Nat} (h : s.Inv) (ht : hostRegRead s offset bytes = .next t) : t.Inv := by
  unfold hostRegRead at ht
  split at ht
  · cases ht
  · cases ht
    split
    · exact observeStatus_inv (seen_inv h _)
    · exact seen_inv h _

theorem hostRegWrite_inv {offset bytes : Nat} {c : Word} (h : s.Inv) (ht : hostRegWrite s offset bytes c = .next t) :
    t.Inv := by
  unfold hostRegWrite at ht
  split at ht <;> cases ht
  exact writeReg_inv h _ c

theorem hostWait_inv (h : s.Inv) : (hostWait s).Inv := by
  have hobs := observeStatus_inv (seen_inv h (.reg 0x04 (statusWord s) :: s.seen))
  unfold hostWait
  split
  · exact { hobs with }
  · exact hobs

theorem hostMemRead_inv {addr : Word} (h : s.Inv) (ht : hostMemRead s addr = .next t) : t.Inv := by
  unfold hostMemRead at ht
  split at ht
  · cases ht
  · split at ht <;> cases ht
    · exact { h with }
    · exact seen_inv h _

theorem hostMemWrite_inv {addr : Word} {v : Byte} (h : s.Inv) (ht : hostMemWrite s addr v = .next t) : t.Inv := by
  unfold hostMemWrite at ht
  split at ht
  · cases ht
  · next haddr =>
    split at ht <;> cases ht
    exact { h with
      memWf := Memory.write_wf h.memWf _ _
      memBound := Memory.write_bounded h.memBound (Nat.lt_of_not_le haddr) v }

theorem hostOp_inv {op : HostOp} (h : s.Inv) (ht : hostOp s op = .next t) : t.Inv := by
  cases op with
  | regRead offset bytes => exact hostRegRead_inv h ht
  | regWrite offset bytes c => exact hostRegWrite_inv h ht
  | wait => cases ht; exact hostWait_inv h
  | memRead addr => exact hostMemRead_inv h ht
  | memWrite addr v => exact hostMemWrite_inv h ht
  | assertReset => cases ht; exact { h with }

theorem hostStep_inv (h : s.Inv) (ht : hostStep s = .next t) : t.Inv := by
  unfold hostStep at ht
  split at ht
  · cases ht; exact h
  · next op rest _ => exact hostOp_inv (s := { s with program := rest }) { h with } ht

/-! ### Reset -/

/-- Reset abandons the command: only bytes that lie in the buffer memory become free (70_reset_and_hazards.md R123). -/
theorem abandonCommand_memoryChange (s : State) : MemoryChange s (runningDst s) (abandonCommand s).mem := by
  unfold abandonCommand
  split
  · exact .refl s _
  · exact {
      wf := fun h => Memory.scramble_wf h _ _ _ _
      bounded := fun h => Memory.scramble_bounded h _ _ (by omega)
      outside := fun a hout => Memory.read_scramble_other _ _ _ (by simp only [Window.contains] at hout; omega) }

theorem abandonCommand_lastAddr (s : State) : (abandonCommand s).lastAddr = s.lastAddr := by
  unfold abandonCommand
  split <;> rfl

theorem resetBlock_inv (h : s.Inv) : (resetBlock s).Inv where
  memWf := (abandonCommand_memoryChange s).wf h.memWf
  memBound := by
    have hbytes : memBytes (resetBlock s) = memBytes s := congrArg (·.toNat + 1) (abandonCommand_lastAddr s)
    rw [hbytes]
    exact (abandonCommand_memoryChange s).bounded h.memBound
  busyClear := nofun
  freshClear _ := ⟨rfl, rfl⟩
  errorClear herr := absurd rfl herr
  okInfo _ := rfl
  neverText := resultZero_neverText
  idleSeq _ := rfl
  seqReady := sequencerReady_off rfl
  busyOpen := nofun

/-! ### The step -/

theorem takeTurn_inv (h : s.Inv) : (takeTurn s).Inv := { h with }

theorem move_inv {turn : Turn} (h : s.Inv) (ht : move turn s = .next t) : t.Inv := by
  cases turn with
  | host => exact hostStep_inv h ht
  | core => exact coreStep_inv h ht
  | coreUnit => exact coreUnit_inv h ht

end

/-- Settles O60: reset, and the move of each agent, keep the invariant. -/
theorem stepKeepsTheInvariant : Obligations.StepKeepsTheInvariant := by
  intro s t h ht
  unfold step at ht
  split at ht
  · cases ht
    exact resetBlock_inv h
  · exact move_inv (takeTurn_inv h) ht

end Sys2Proof.Machine
end

section
/-! PROOFS. What every instruction leaves unchanged, and where an instruction runs (10_state.md R27 to R38). -/

namespace Sys2Proof.Machine

/-- Settles O41: no move of the core changes the operands or anything of the host. -/
theorem instructionsKeepConfiguration : Obligations.InstructionsKeepConfiguration := by
  intro i s t h
  obtain ⟨hcfg, hlatched, hlast, hreset, hturns, hopen, hprogram, hseen⟩ := exec_coreFrame h
  exact ⟨hcfg, hlatched, hlast, hreset, hturns, hopen, hprogram, hseen⟩

/-- GET_BIT, SET_BIT and PACKED_BYTES write neither OUT_FLAGS nor OUT_CSIZE (10_state.md R28, R29). -/
theorem exec_simple_keeps_outFlags_outCsize {i : Instr} {s t : State} (h : exec i s = .next t)
    (hi : i = .getBit ∨ i = .setBit ∨ i = .packedBytes) :
    t.out.outFlags = s.out.outFlags ∧ t.out.outCsize = s.out.outCsize := by
  rcases exec_cases h with ⟨c, info, -, rfl⟩ | ⟨-, -, r, rfl⟩ | ⟨-, -, rfl⟩ | ⟨-, r, rfl⟩ | ⟨rfl, -⟩ | ⟨rfl, -⟩ |
    ⟨v, len, d, rfl, -⟩
  · exact ⟨rfl, rfl⟩
  · exact ⟨rfl, rfl⟩
  · exact ⟨rfl, rfl⟩
  · exact ⟨rfl, rfl⟩
  · simp at hi
  · simp at hi
  · cases v <;> simp at hi

/-- Settles O43: an instruction that leaves the block idle has ended its command, and an end keeps these results. -/
theorem instructionsKeepOtherResults : Obligations.InstructionsKeepOtherResults := by
  intro i s t h hidle
  have hend : CommandEnds s (dstWindow s i) t :=
    (exec_goesOn_or_ends h).resolve_left fun ⟨_, hgo⟩ => by simp [hgo.phase] at hidle
  exact ⟨hend.results_of_error, hend.errInfo_of_ok, exec_simple_keeps_outFlags_outCsize h⟩

/-- The core step of a defined command accepted and not begun is the command (10_state.md R38). -/
theorem coreStep_of_decode {s : State} {i : Instr} (hb : s.phase = .busy) (hs : s.seq = .off)
    (hd : decodeCommand s.latchedCmd = .ok i) : coreStep s = exec i s := by
  rw [coreStep_off hb hs, runLatched, hd]

/-- Settles O44: the step is the core step, which is exec of the latched command. -/
theorem stepRunsTheLatchedCommand : Obligations.StepRunsTheLatchedCommand := by
  intro s i hreset hturn hb hs hd
  rw [step_of_core hreset hturn]
  exact coreStep_of_decode (s := takeTurn s) hb hs hd

/-- The internal action of a DECOMPRESS in progress with a token left is exec of that token (42_rle_decode.md R88, R89). -/
theorem coreUnit_of_token {s : State} {d : Decoder} (hb : s.phase = .busy) (hs : s.seq = .decoding d)
    (hk : d.k < srcLen s) : coreUnit s = exec (decodeToken (fetchToken s d.k)) s := by
  rw [coreUnit, hb, hs]
  exact if_pos hk

theorem step_of_coreUnit {s : State} (hreset : s.resetIn = false) (hturn : nextTurn s = .coreUnit) :
    step s = coreUnit (takeTurn s) := by
  rw [step, hreset, hturn]
  rfl

/-! ### withFetchWord (log entry 8) -/

/-- A placed command is accepted and not begun, and the core moves next. -/
theorem step_placeCommand (s : State) {c : Word} {i : Instr} (hd : decodeCommand c = .ok i) :
    step (placeCommand s c) = exec i (takeTurn (placeCommand s c)) ∧ ∃ t, step (placeCommand s c) = .next t := by
  have hstep : step (placeCommand s c) = exec i (takeTurn (placeCommand s c)) :=
    coreStep_of_decode (s := takeTurn (placeCommand s c)) rfl rfl hd
  exact ⟨hstep, hstep ▸ exec_command_next hd _⟩

/-- In `u` the core's next internal action reads this token: it is the next one of a DECOMPRESS in progress. -/
structure TokenPlaced (u : State) (tok : Byte) (d : Decoder) : Prop where
  notReset : u.resetIn = false
  turn : nextTurn u = .coreUnit
  seq : u.seq = .decoding d
  ready : decoderReady u d = true
  left : d.k < srcLen u
  fetched : fetchToken u d.k = tok

theorem TokenPlaced.step_eq {u : State} {tok : Byte} {d : Decoder} (h : TokenPlaced u tok d) :
    step u = exec (decodeToken tok) (takeTurn u) ∧ ∃ t, step u = .next t := by
  obtain ⟨hb, -⟩ := (decoderReady_iff u d).1 h.ready
  rw [step_of_coreUnit h.notReset h.turn]
  constructor
  · rw [coreUnit_of_token (s := takeTurn u) hb h.seq h.left]
    exact congrArg (fun tok => exec (decodeToken tok) (takeTurn u)) h.fetched
  · exact ⟨_, coreUnit_decoding (s := takeTurn u) h.seq h.ready⟩

/-- The image that is set up has 128 pixels, so 16 bytes. -/
theorem placeDecompress_sizes (s : State) (tok : Byte) :
    area (placeDecompress s tok) = 128 ∧ packedLen (placeDecompress s tok) = 16 :=
  ⟨(by decide : (128 : Word).toNat * (1 : Word).toNat = 128),
    (by decide : ((128 : Word).toNat * (1 : Word).toNat + 7) / 8 = 16)⟩

/-- The memory it is set up in has room for the token and the bitmap. -/
theorem placeDecompress_memBytes (s : State) (tok : Byte) : 17 ≤ (placeDecompress s tok).lastAddr.toNat + 1 := by
  show 17 ≤ (if s.lastAddr.toNat < 16 then (16 : Word) else s.lastAddr).toNat + 1
  split
  · decide
  · omega

/-- The DECOMPRESS that is set up passes its checks, whatever the machine it is set up in. -/
theorem placeDecompress_accepts (s : State) (tok : Byte) : DecompressAccepts (placeDecompress s tok) := by
  obtain ⟨harea, hlen⟩ := placeDecompress_sizes s tok
  have hbytes := placeDecompress_memBytes s tok
  have hsrc : (placeDecompress s tok).cfg.srcAddr.toNat = 0 ∧ (placeDecompress s tok).cfg.srcSize.toNat = 1 := ⟨rfl, rfl⟩
  have hdst : (placeDecompress s tok).cfg.dstAddr.toNat = 1 := rfl
  rw [area_eq] at harea
  refine ⟨rfl, ?_, ?_, ?_, ?_, ?_⟩ <;> simp only [harea, hlen, hsrc, hdst] <;> omega

theorem placeDecompress_placed {s : State} (hm : s.mem.wf) (tok : Byte) :
    TokenPlaced (placeDecompress s tok) tok { k := 0, pos := 0 } where
  notReset := rfl
  turn := rfl
  seq := rfl
  ready := (decoderReady_iff _ _).2
    ⟨rfl, (rfl : decodeCommand (commandWord 0x5) = _), placeDecompress_accepts s tok, Nat.zero_le _, Nat.zero_le _⟩
  left := Nat.zero_lt_one
  fetched := Memory.read_write_self hm 0 tok

/-- The byte is placed as the next token of the DECOMPRESS in progress, or of one that is set up. -/
theorem placeToken_placed {s : State} (hm : s.mem.wf) (tok : Byte) : ∃ d, TokenPlaced (placeToken s tok) tok d := by
  unfold placeToken
  split
  · next d hs =>
    split
    · next hr =>
      obtain ⟨hready, hk⟩ := hr
      obtain ⟨hb, hd, ha, hle, hpos⟩ := (decoderReady_iff s d).1 hready
      exact ⟨d, {
        notReset := rfl
        turn := rfl
        seq := hs
        ready := (decoderReady_iff _ _).2 ⟨hb, hd, decompressAccepts_congr (s := s) rfl rfl ha, hle, hpos⟩
        left := hk
        fetched := Memory.read_write_self hm _ tok }⟩
    · exact ⟨_, placeDecompress_placed hm tok⟩
  · exact ⟨_, placeDecompress_placed hm tok⟩
  · exact ⟨_, placeDecompress_placed hm tok⟩

theorem decodeTableWord_eq_some {nbits w : Nat} {i : Instr} (h : decodeTableWord nbits w = some i) :
    decode (ofTableBits nbits w) = .ok i := by
  unfold decodeTableWord at h
  split at h
  · next hd => rw [hd, Option.some.inj h]
  · cases h

/-- Settles O46: a placed command is the accepted one, a placed token the next one of a DECOMPRESS in progress. -/
theorem placedInstructionRunsNext : Obligations.PlacedInstructionRunsNext := by
  intro s nbits w i hm hi
  have hd := decodeTableWord_eq_some hi
  unfold State.withFetchWord
  split
  · next c hbits =>
    rw [hbits] at hd
    exact step_placeCommand s hd
  · next tok hbits =>
    rw [hbits] at hd
    cases hd
    obtain ⟨d, hplaced⟩ := placeToken_placed hm tok
    exact hplaced.step_eq

end Sys2Proof.Machine
end

section
/-! PROOFS. The register window: which accesses reach a register, what they read and store (10_state.md R14 to R37). -/

namespace Sys2Proof.Machine

/-! ### Which accesses reach a register -/

theorem regAt_aligned : ∀ k : Fin 16, (regAt (4 * k.val)).isSome = true := by decide

/-- The window holds the 16 aligned offsets below 64, and nothing else (10_state.md R14). -/
theorem regAt_isSome_iff (offset : Nat) : (regAt offset).isSome = true ↔ offset % 4 = 0 ∧ offset < 64 := by
  constructor
  · intro h
    unfold regAt at h
    split at h
    case h_17 => cases h
    all_goals decide
  · rintro ⟨halign, hlt⟩
    have h := regAt_aligned ⟨offset / 4, by omega⟩
    rwa [Nat.mul_div_cancel' (Nat.dvd_of_mod_eq_zero halign)] at h

/-- An aligned 32-bit access inside the window reaches a register (10_state.md R15). -/
theorem accessedReg_of_aligned {offset : Nat} (halign : offset % 4 = 0) (hlt : offset < 64) :
    ∃ r, accessedReg offset 4 = some r :=
  Option.isSome_iff_exists.1 ((regAt_isSome_iff offset).2 ⟨halign, hlt⟩)

/-- No other access does (10_state.md R15). -/
theorem accessedReg_eq_none {offset bytes : Nat} (h : bytes ≠ 4 ∨ offset % 4 ≠ 0 ∨ 64 ≤ offset) :
    accessedReg offset bytes = none := by
  unfold accessedReg
  split
  · next hbytes =>
    rw [← Option.not_isSome_iff_eq_none, regAt_isSome_iff]
    omega
  · rfl

section
variable {s : State} {offset bytes : Nat}

/-! ### Reads and writes of a register -/

theorem hostRegWrite_of_reg {r : Reg} (h : accessedReg offset bytes = some r) (c : Word) :
    hostOp s (.regWrite offset bytes c) = .next (writeReg s r c) := by
  rw [hostOp, hostRegWrite, h]

/-- A read returns the register and changes nothing but what the host knows (10_state.md R15). -/
theorem hostRegRead_of_reg {r : Reg} (h : accessedReg offset bytes = some r) :
    ∃ t, hostOp s (.regRead offset bytes) = .next t ∧
      t = { s with seen := .reg offset (readReg s r) :: s.seen, unobserved := t.unobserved } := by
  rw [hostOp, hostRegRead, h]
  refine ⟨_, rfl, ?_⟩
  split
  · unfold observeStatus
    split <;> rfl
  · rfl

theorem hostReg_refused (h : accessedReg offset bytes = none) (c : Word) :
    hostOp s (.regRead offset bytes) = .refused (.badRegisterAccess offset bytes) ∧
    hostOp s (.regWrite offset bytes c) = .refused (.badRegisterAccess offset bytes) := by
  constructor
  · rw [hostOp, hostRegRead, h]
  · rw [hostOp, hostRegWrite, h]

theorem writeReg_busy (hb : s.phase = .busy) (r : Reg) (c : Word) : writeReg s r c = s := by
  rw [writeReg, hb]

theorem writeReg_idle (hidle : s.phase = .idle) (r : Reg) (c : Word) : writeReg s r c = writeRegIdle s c r := by
  rw [writeReg, hidle]

/-- While IDLE a write of a register has its effect (10_state.md R36, R37). -/
theorem hostRegWrite_idle {r : Reg} (hidle : s.phase = .idle) (h : accessedReg offset bytes = some r) (c : Word) :
    hostOp s (.regWrite offset bytes c) = .next (writeRegIdle s c r) := by
  rw [hostRegWrite_of_reg h, writeReg_idle hidle]

/-- A register that no IDLE write changes is never changed by a write (10_state.md R15, R35). -/
theorem hostRegWrite_ignored {r : Reg} (h : accessedReg offset bytes = some r) (c : Word)
    (hr : writeRegIdle s c r = s) : hostOp s (.regWrite offset bytes c) = .next s := by
  rw [hostRegWrite_of_reg h]
  cases hphase : s.phase with
  | busy => rw [writeReg_busy hphase]
  | idle => rw [writeReg_idle hphase, hr]

end

/-- Settles O11: exactly the aligned 32-bit accesses inside the window reach a register, and those are answered. -/
theorem onlyAlignedWordAccessesHaveMeaning : Obligations.OnlyAlignedWordAccessesHaveMeaning := by
  intro s offset bytes c
  refine ⟨fun hbad => hostReg_refused (accessedReg_eq_none hbad) c, ?_⟩
  rintro rfl halign hlt
  obtain ⟨r, hr⟩ := accessedReg_of_aligned halign hlt
  obtain ⟨t, ht, -⟩ := hostRegRead_of_reg (s := s) hr
  exact ⟨⟨t, ht⟩, _, hostRegWrite_of_reg hr c⟩

/-! ### STATUS -/

/-- BUSY, DONE and ERR are disjoint bits of the word, BUSY bit 0 and DONE bit 1 (10_state.md R18). -/
theorem statusWord_fields : ∀ (busy done : Bool) (code : BitVec 4),
    let word : Word := (BitVec.ofBool busy).setWidth 32 ||| ((BitVec.ofBool done).setWidth 32 <<< 1) |||
      (code.setWidth 32 <<< 8)
    word.toNat = busy.toNat + 2 * done.toNat + 256 * code.toNat ∧ word.getLsbD 0 = busy ∧ word.getLsbD 1 = done := by
  decide

theorem busyBit_toNat (s : State) : (busyBit s).toNat = if s.phase = .busy then 1 else 0 := by
  cases hphase : s.phase <;> simp [busyBit, hphase]

/-- No reserved code exists (60_exceptions.md R107). -/
theorem errNumber_le (code : ErrCode) : code.number.toNat ≤ 9 := by cases code <;> decide

/-- Settles O12: the three fields of STATUS; acceptance clears DONE and completion clears BUSY. -/
theorem statusLayout : Obligations.StatusLayout := by
  intro s
  obtain ⟨hword, hbit0, hbit1⟩ := statusWord_fields (busyBit s) s.done s.err.number
  refine ⟨?_, errNumber_le s.err, ?_⟩
  · rw [statusWord, hword, busyBit_toNat]
    cases s.done <;> rfl
  · rintro hinv ⟨hbusy, hdone⟩
    have hrunning : s.phase = .busy := of_decide_eq_true (hbit0.symm.trans hbusy)
    exact Bool.false_ne_true ((hinv.busyClear hrunning).1.symm.trans (hbit1.symm.trans hdone))

/-- STATUS of a running command (10_state.md R35). -/
theorem statusWord_of_busy {s : State} (hb : s.phase = .busy) (hdone : s.done = false) (herr : s.err = .ok) :
    statusWord s = 0x00000001 := by
  have hbusy : busyBit s = true := decide_eq_true hb
  rw [statusWord, hbusy, hdone, herr]
  decide

/-! ### Writes -/

/-- Settles O8: a write while BUSY reaches a register and is ignored; acceptance had cleared what is read. -/
theorem busyWritesAreIgnored : Obligations.BusyWritesAreIgnored := by
  intro s hb
  refine ⟨fun offset c halign hlt => ?_, fun hinv => ?_⟩
  · obtain ⟨r, hr⟩ := accessedReg_of_aligned halign hlt
    rw [hostRegWrite_of_reg hr, writeReg_busy hb]
  · obtain ⟨hdone, herr, hout⟩ := hinv.busyClear hb
    refine ⟨statusWord_of_busy hb hdone herr, ?_, ?_, ?_, ?_⟩ <;> rw [readReg, hout] <;> rfl

/-- Keeping the low two bits is masking them (10_state.md R21). -/
theorem flags_mask (c : Word) : (c &&& 0x3).setWidth 2 = c.setWidth 2 := by
  ext i hi
  interval_cases i <;> simp

/-- Keeping the low bit is masking it (10_state.md R26). -/
theorem bitValue_mask (c : Word) : (c &&& 0x1).setWidth 1 = c.setWidth 1 := by
  ext i hi
  interval_cases i
  simp

/-- Settles O6: each write reaches its register, which stores the bits it implements. -/
theorem idleWritesStoreTheImplementedBits : Obligations.IdleWritesStoreTheImplementedBits := by
  intro s c hidle
  rw [flags_mask, bitValue_mask]
  exact ⟨hostRegWrite_idle (r := .width) hidle rfl c, hostRegWrite_idle (r := .height) hidle rfl c,
    hostRegWrite_idle (r := .flags) hidle rfl c, hostRegWrite_idle (r := .srcAddr) hidle rfl c,
    hostRegWrite_idle (r := .srcSize) hidle rfl c, hostRegWrite_idle (r := .dstAddr) hidle rfl c,
    hostRegWrite_idle (r := .bitIndex) hidle rfl c, hostRegWrite_idle (r := .bitValue) hidle rfl c⟩

/-- Settles O7: a write of CMD is acceptance, after which the block is BUSY with DONE and ERR clear. -/
theorem acceptanceLatchesAndClears : Obligations.AcceptanceLatchesAndClears := fun _ c hidle =>
  ⟨_, hostRegWrite_idle (r := .cmd) hidle rfl c, rfl, statusWord_of_busy rfl rfl rfl⟩

/-- Settles O10: no write changes a read-only register or a reserved offset. -/
theorem readOnlyWritesAreIgnored : Obligations.ReadOnlyWritesAreIgnored := by
  intro s offset c h
  simp only [List.mem_cons, List.not_mem_nil, or_false] at h
  rcases h with rfl | rfl | rfl | rfl | rfl | rfl | rfl <;> exact hostRegWrite_ignored rfl c rfl

/-! ### Reads -/

/-- Settles O9: each offset is that of the register in the list, and a read returns the register. -/
theorem registerReadsFollowTheMap : Obligations.RegisterReadsFollowTheMap := by
  intro s offset v h
  have hreg : ∃ r, accessedReg offset 4 = some r ∧ readReg s r = v := by
    simp only [List.mem_cons, Prod.mk.injEq, List.not_mem_nil, or_false] at h
    rcases h with ⟨rfl, rfl⟩ | ⟨rfl, rfl⟩ | ⟨rfl, rfl⟩ | ⟨rfl, rfl⟩ | ⟨rfl, rfl⟩ | ⟨rfl, rfl⟩ | ⟨rfl, rfl⟩ |
      ⟨rfl, rfl⟩ | ⟨rfl, rfl⟩ | ⟨rfl, rfl⟩ | ⟨rfl, rfl⟩ | ⟨rfl, rfl⟩ | ⟨rfl, rfl⟩ | ⟨rfl, rfl⟩ | ⟨rfl, rfl⟩ |
      ⟨rfl, rfl⟩ <;> exact ⟨_, rfl, rfl⟩
  obtain ⟨r, hr, rfl⟩ := hreg
  exact hostRegRead_of_reg hr

/-- Settles O58: every register of the window holds 0 at reset. -/
theorem resetValuesOfTheBlock : Obligations.ResetValuesOfTheBlock :=
  ⟨fun r => by cases r <;> rfl, rfl, rfl, rfl⟩

end Sys2Proof.Machine
end

section
/-! PROOFS. The memory: what a read gives after a write, the windows of the commands and the checks on them, and what an
instruction may write (20_memory.md R45 to R49). -/

namespace Sys2Proof.Machine

/-- Whether its command ends or goes on, an instruction writes only its destination window (20_memory.md R45). -/
theorem exec_sameOutside {i : Instr} {s t : State} (h : exec i s = .next t) :
    SameOutside (dstWindow s i) s.mem t.mem := by
  rcases exec_goesOn_or_ends h with ⟨-, hgo⟩ | hend
  · exact hgo.memory.outside
  · exact hend.memory.outside

/-- GET_BIT and PACKED_BYTES write RESULT or raise an error, and no memory (40_bit_array.md R73, R75). -/
theorem exec_mem_of_getBit_or_packedBytes {i : Instr} {s t : State} (h : exec i s = .next t)
    (hi : i = .getBit ∨ i = .packedBytes) : t.mem = s.mem := by
  rcases exec_cases h with ⟨c, info, -, rfl⟩ | ⟨-, -, r, rfl⟩ | ⟨rfl, -⟩ | ⟨-, r, rfl⟩ | ⟨rfl, -⟩ | ⟨rfl, -⟩ |
    ⟨v, len, d, rfl, -⟩
  · rfl
  · rfl
  · simp at hi
  · rfl
  · simp at hi
  · simp at hi
  · cases v <;> simp at hi

/-- Settles O42: a move of the core writes only the window, and the commands that have none write nothing. -/
theorem instructionsWriteOnlyTheirDestination : Obligations.InstructionsWriteOnlyTheirDestination := by
  refine ⟨fun i s t h => exec_sameOutside h, ?_⟩
  rintro s t (h | h)
  · exact exec_mem_of_getBit_or_packedBytes h (.inl rfl)
  · exact exec_mem_of_getBit_or_packedBytes h (.inr rfl)

/-- Settles O15: the canonical form is kept, the written byte is read back, and every other byte is the old one. -/
theorem memoryReadAfterWrite : Obligations.MemoryReadAfterWrite := by
  intro m a b v hm
  refine ⟨Memory.write_wf hm a v, ?_⟩
  split
  · next hb =>
    rw [hb]
    exact Memory.read_write_self hm a v
  · next hb => exact Memory.read_write_other m v hb

/-! ### Windows and their checks -/

/-- Settles O21: the windows are read off the configuration registers; the empty window holds no address. -/
theorem commandWindows : Obligations.CommandWindows := fun _ =>
  ⟨rfl, Window.none_contains, rfl, rfl, fun a => ⟨Window.none_contains a, Window.none_contains a⟩, rfl, rfl, rfl, rfl⟩

/-- A window past MEM_BYTES fails `in_mem` (20_memory.md R46). -/
theorem not_inMem_of_gt {s : State} {a len : Nat} (h : a + len > s.lastAddr.toNat + 1) : ¬ inMem s a len = true :=
  fun hin => Nat.not_le_of_gt h ((inMem_iff s a len).1 hin)

/-- GET_BIT, where a check fails (40_bit_array.md R73). -/
theorem execGetBit_error {s : State} {c : ErrCode} {info : Word} (h : bitCheck s = some (c, info)) :
    exec .getBit s = .next (raiseError s c info) := by
  simp only [exec, execGetBit, h]

/-- SET_BIT, where a check fails (40_bit_array.md R74). -/
theorem execSetBit_error {s : State} {c : ErrCode} {info : Word} (h : bitCheck s = some (c, info)) :
    exec .setBit s = .next (raiseError s c info) := by
  simp only [exec, execSetBit, h]

/-- The window is the first check of GET_BIT and SET_BIT (60_exceptions.md R109). -/
theorem bitCheck_srcOutside {s : State} (h : srcBase s + srcLen s > s.lastAddr.toNat + 1) :
    bitCheck s = some (.bus, 0) := by
  rw [bitCheck, if_pos (not_inMem_of_gt h)]

section
variable {s : State} {f : BitVec 2} (hflags : s.cfg.flags = f) (hpos : 0 < s.cfg.width.toNat * s.cfg.height.toNat)
  (hmax : s.cfg.width.toNat * s.cfg.height.toNat ≤ 2 ^ 32 - 1)
include hflags hpos hmax

/-- With the right FLAGS and a legal area the checks left are those of the windows (60_exceptions.md R109). -/
theorem codecCheck_windows (src dst : Window) :
    codecCheck s f src dst =
      if ¬ inMem s src.base src.len then some (.bus, 0)
      else if ¬ inMem s dst.base dst.len then some (.bus, 1)
      else if overlap src.base src.len dst.base dst.len then some (.overlap, 0)
      else none := by
  have hzero : area s ≠ 0 := Nat.ne_of_gt hpos
  have hover : ¬ area s > Config.areaMax := Nat.not_lt_of_le hmax
  rw [codecCheck, if_neg (not_not.2 hflags), if_neg hzero, if_neg hover]

/-- The source window is checked first: ERR_INFO 0 (60_exceptions.md R101). -/
theorem codecCheck_srcOutside {src : Window} (dst : Window) (hsrc : src.base + src.len > s.lastAddr.toNat + 1) :
    codecCheck s f src dst = some (.bus, 0) := by
  rw [codecCheck_windows hflags hpos hmax, if_pos (not_inMem_of_gt hsrc)]

/-- The destination window is checked next: ERR_INFO 1 (60_exceptions.md R101). -/
theorem codecCheck_dstOutside {src dst : Window} (hsrc : src.base + src.len ≤ s.lastAddr.toNat + 1)
    (hdst : dst.base + dst.len > s.lastAddr.toNat + 1) : codecCheck s f src dst = some (.bus, 1) := by
  rw [codecCheck_windows hflags hpos hmax, if_neg (not_not.2 ((inMem_iff s _ _).2 hsrc)), if_pos (not_inMem_of_gt hdst)]

end

/-- Settles O22: GET_BIT and SET_BIT check their window first, a codec command its two windows after FLAGS and area. -/
theorem windowOutsideMemoryIsErrBus : Obligations.WindowOutsideMemoryIsErrBus := by
  rintro s i (rfl | rfl | ⟨rfl, hflags⟩ | ⟨rfl, hflags⟩) harea
  · exact ⟨fun hsrc => execGetBit_error (bitCheck_srcOutside hsrc), fun hcodec => by simp at hcodec⟩
  · exact ⟨fun hsrc => execSetBit_error (bitCheck_srcOutside hsrc), fun hcodec => by simp at hcodec⟩
  · obtain ⟨hpos, hmax⟩ := harea (.inl rfl)
    exact ⟨fun hsrc => execCompress_error (codecCheck_srcOutside hflags hpos hmax _ hsrc),
      fun _ hsrc hdst => execCompress_error (codecCheck_dstOutside hflags hpos hmax hsrc hdst)⟩
  · obtain ⟨hpos, hmax⟩ := harea (.inr rfl)
    exact ⟨fun hsrc => execDecompress_error (codecCheck_srcOutside hflags hpos hmax _ hsrc),
      fun _ hsrc hdst => execDecompress_error (codecCheck_dstOutside hflags hpos hmax hsrc hdst)⟩

/-! ### The host's accesses -/

/-- The windows of the open BUSY intervals (70_reset_and_hazards.md R126). -/
theorem inOpenWindow_iff (s : State) (a : Nat) :
    inOpenWindow s a = true ↔ ∃ w ∈ s.unobserved, w.src.contains a ∨ w.dst.contains a := by
  simp only [inOpenWindow, List.any_eq_true, decide_eq_true_eq]

section
variable {s : State} {addr : Word}

/-- A host write to an address of the memory outside every open window is done (20_memory.md R49). -/
theorem hostMemWrite_of_outside (haddr : addr.toNat < memBytes s) (hopen : ¬ inOpenWindow s addr.toNat = true)
    (v : Byte) : hostOp s (.memWrite addr v) = .next { s with mem := s.mem.write addr.toNat v } := by
  rw [hostOp, hostMemWrite, if_neg (Nat.not_le_of_lt haddr), if_neg hopen]

/-- An address of MEM_BYTES or more does not exist (20_memory.md R40; log entry 17). -/
theorem hostMem_faults (h : memBytes s ≤ addr.toNat) (v : Byte) :
    hostOp s (.memRead addr) = .fault (.noSuchAddress addr) ∧
    hostOp s (.memWrite addr v) = .fault (.noSuchAddress addr) := by
  constructor
  · rw [hostOp, hostMemRead, if_pos h]
  · rw [hostOp, hostMemWrite, if_pos h]

end

/-- Settles O52: the write is done, and it is a write of the one byte. -/
theorem hostMemoryWrite : Obligations.HostMemoryWrite := by
  intro s addr v hm haddr hclosed
  have hopen : ¬ inOpenWindow s addr.toNat = true := by
    rw [inOpenWindow_iff]
    rintro ⟨w, hw, hin⟩
    obtain ⟨hsrc, hdst⟩ := hclosed w hw
    exact hin.elim hsrc hdst
  exact ⟨_, hostMemWrite_of_outside haddr hopen v, rfl, Memory.read_write_self hm _ v,
    fun a ha => Memory.read_write_other s.mem v ha⟩

/-- Settles O54: reads and writes check the address before anything else. -/
theorem missingAddressFaults : Obligations.MissingAddressFaults := fun _ _ v h => hostMem_faults h v

end Sys2Proof.Machine
end

section
/-! PROOFS. The encoding: the fields of command words and run tokens, and the decoder and the encoder as inverses of each
other (30_encoding.md R59 to R65). -/

namespace Sys2Proof

/-! ### Tokens -/

/-- V is bit 7, the one of weight 128 (30_encoding.md R61). -/
theorem tokenValue_eq (tok : Byte) : tokenValue tok = decide (128 ≤ tok.toNat) := BitVec.msb_eq_decide tok

theorem tokenLength_eq (tok : Byte) : tokenLength tok = tok.toNat % 128 + 1 := by
  simp [tokenLength]

theorem lengthEncodable_tokenLength (tok : Byte) : lengthEncodable (tokenLength tok) := by
  rw [lengthEncodable, tokenLength_eq, Config.maxRun]
  omega

/-- The two fields of a token do not overlap (30_encoding.md R61). -/
theorem tokenByte_toNat (v : Bool) {len : Nat} (h : lengthEncodable len) :
    (tokenByte v len).toNat = (if v then 128 else 0) + (len - 1) := by
  obtain ⟨-, hmax⟩ := h
  have hlow : len - 1 < 2 ^ 7 := by rw [Config.maxRun] at hmax; omega
  have hmod : (len - 1) % 256 = len - 1 := by omega
  cases v with
  | false => simp [tokenByte, hmod]
  | true => simpa [tokenByte, hmod] using (Nat.two_pow_add_eq_or_of_lt hlow 1).symm

/-- R61 and R62: assembling a token from the value and length it decodes to gives the token back. -/
theorem tokenByte_of_fields (tok : Byte) : tokenByte (tokenValue tok) (tokenLength tok) = tok := by
  apply BitVec.eq_of_toNat_eq
  rw [tokenByte_toNat _ (lengthEncodable_tokenLength tok), tokenValue_eq, tokenLength_eq]
  have := tok.isLt
  simp only [decide_eq_true_eq]
  split <;> omega

theorem tokenValue_tokenByte (v : Bool) {len : Nat} (h : lengthEncodable len) : tokenValue (tokenByte v len) = v := by
  rw [tokenValue_eq, tokenByte_toNat v h]
  obtain ⟨-, hmax⟩ := h
  rw [Config.maxRun] at hmax
  cases v with
  | false => exact decide_eq_false (show ¬ 128 ≤ 0 + (len - 1) by omega)
  | true => exact decide_eq_true (Nat.le_add_right 128 (len - 1))

theorem tokenLength_tokenByte (v : Bool) {len : Nat} (h : lengthEncodable len) : tokenLength (tokenByte v len) = len := by
  rw [tokenLength_eq, tokenByte_toNat v h]
  obtain ⟨hmin, hmax⟩ := h
  rw [Config.maxRun] at hmax
  split <;> omega

theorem decodeToken_tokenByte (v : Bool) {len : Nat} (h : lengthEncodable len) :
    decodeToken (tokenByte v len) = if v then .run1 len else .run0 len := by
  rw [decodeToken, tokenValue_tokenByte v h, tokenLength_tokenByte v h]

/-- Every byte is the encoding of the run it decodes to, whose length is in 1 .. 128 (30_encoding.md R62 to R64). -/
theorem decodeToken_wellFormed_and_encode (tok : Byte) :
    (decodeToken tok).wellFormed = true ∧ encode (decodeToken tok) = .token tok := by
  have hlen := lengthEncodable_tokenLength tok
  have hbyte := tokenByte_of_fields tok
  cases hv : tokenValue tok with
  | false =>
    rw [hv] at hbyte
    rw [decodeToken, hv]
    exact ⟨decide_eq_true hlen, congrArg Encoded.token hbyte⟩
  | true =>
    rw [hv] at hbyte
    rw [decodeToken, hv]
    exact ⟨decide_eq_true hlen, congrArg Encoded.token hbyte⟩

/-! ### Command words -/

/-- A word with Z = 0 is the command word of its OP (30_encoding.md R59). -/
theorem eq_commandWord {w : Word} {op : BitVec 4} (hz : zField w = 0) (hop : opField w = op) : w = commandWord op := by
  have hz' : w.toNat >>> 4 % 2 ^ 28 = 0 := by simpa [zField] using congrArg BitVec.toNat hz
  have hw := w.isLt
  subst hop
  apply BitVec.eq_of_toNat_eq
  simp only [commandWord, opField, BitVec.toNat_setWidth, BitVec.extractLsb'_toNat]
  omega

/-- The opcode map read both ways: a word decodes to the instruction it encodes, and to no other (30_encoding.md R60). -/
theorem decodeCommand_eq_ok_iff {w : Word} {i : Instr} : decodeCommand w = .ok i ↔ encode i = .cmdw w := by
  constructor
  · intro h
    unfold decodeCommand at h
    split at h
    · cases h
    · next hz =>
      repeat' split at h
      all_goals cases h
      all_goals exact congrArg Encoded.cmdw (eq_commandWord (not_not.1 hz) ‹_›).symm
  · intro h
    cases i <;> cases h <;> rfl

/-- The encoder writes a command word for the five commands alone, and they have no operand. -/
theorem wellFormed_of_encode_eq_cmdw {w : Word} {i : Instr} (h : encode i = .cmdw w) : i.wellFormed = true := by
  cases i <;> cases h <;> rfl

theorem encode_command_iff {w c : Word} {i : Instr} (hi : encode i = .cmdw c) : encode i = .cmdw w ↔ w = c := by
  rw [hi, Encoded.cmdw.injEq, eq_comm]

/-! ### The obligations -/

/-- Settles O1: a command word is decided by R60's map; a token's two fields are read back. -/
theorem decodeOfEncodeGivesTheInstruction : Obligations.DecodeOfEncodeGivesTheInstruction := by
  intro i hwf
  cases i with
  | run0 len => exact congrArg Except.ok (decodeToken_tokenByte false (of_decide_eq_true hwf))
  | run1 len => exact congrArg Except.ok (decodeToken_tokenByte true (of_decide_eq_true hwf))
  | _ => exact decodeCommand_eq_ok_iff.2 rfl

/-- Settles O2: both formats are lossless, and a decoded length is in 1 .. 128. -/
theorem encodeOfDecodeGivesTheWord : Obligations.EncodeOfDecodeGivesTheWord := by
  intro e i h
  cases e with
  | cmdw w =>
    have henc := decodeCommand_eq_ok_iff.1 h
    exact ⟨wellFormed_of_encode_eq_cmdw henc, henc⟩
  | token tok =>
    cases h
    exact decodeToken_wellFormed_and_encode tok

/-- Settles O4: the words that decode are the five that the encoder writes for the commands. -/
theorem onlyTheFiveWordsAreCommands : Obligations.OnlyTheFiveWordsAreCommands := by
  intro w
  simp only [decodeCommand_eq_ok_iff]
  refine ⟨encode_command_iff rfl, encode_command_iff rfl, encode_command_iff rfl, encode_command_iff rfl,
    encode_command_iff rfl, ?_⟩
  constructor
  · rintro ⟨i, h⟩
    cases i <;> cases h <;> decide
  · rintro (rfl | rfl | rfl | rfl | rfl)
    · exact ⟨.getBit, rfl⟩
    · exact ⟨.setBit, rfl⟩
    · exact ⟨.packedBytes, rfl⟩
    · exact ⟨.compress, rfl⟩
    · exact ⟨.decompress, rfl⟩

/-- Settles O3: each word is the encoding of its instruction, so this is O1 at ten instructions. -/
theorem writtenWordsDecode : Obligations.WrittenWordsDecode := by
  have h : ∀ i : Instr, i.wellFormed = true → decode (encode i) = .ok i := decodeOfEncodeGivesTheInstruction
  exact ⟨h .getBit rfl, h .setBit rfl, h .packedBytes rfl, h .compress rfl, h .decompress rfl, h (.run0 1) rfl,
    h (.run0 128) rfl, h (.run1 1) rfl, h (.run1 128) rfl, h (.run0 4) rfl⟩

/-- Settles O5: the arithmetic of the token's two fields. -/
theorem tokenIsValueBitAndBiasedLength : Obligations.TokenIsValueBitAndBiasedLength :=
  ⟨fun tok => ⟨tokenValue_eq tok, tokenLength_eq tok⟩, fun v _ hmin hmax => tokenByte_toNat v ⟨hmin, hmax⟩⟩

end Sys2Proof
end

section
/-! PROOFS. The host's WAIT: one poll of STATUS (30_encoding.md R67). -/

namespace Sys2Proof.Machine

theorem hostStep_of_program {s : State} {op : HostOp} {rest : List HostOp} (h : s.program = op :: rest) :
    hostStep s = hostOp { s with program := rest } op := by
  rw [hostStep, h]

theorem hostWait_of_busy {s : State} (h : s.phase = .busy) :
    hostWait s = { s with seen := .reg 0x04 (statusWord s) :: s.seen, program := .wait :: s.program } := by
  simp only [hostWait, observeStatus, h]

theorem hostWait_of_not_busy {s : State} (h : s.phase ≠ .busy) :
    hostWait s = { s with seen := .reg 0x04 (statusWord s) :: s.seen, unobserved := [] } := by
  cases hphase : s.phase with
  | busy => exact absurd hphase h
  | idle => simp only [hostWait, observeStatus, hphase]

/-- Settles O55: while BUSY the poll puts WAIT back, else it ends the open BUSY intervals (log entry 10). -/
theorem waitPollsStatus : Obligations.WaitPollsStatus := by
  intro s rest hprog
  rw [hostStep_of_program hprog, hostOp]
  by_cases hbusy : s.phase = .busy
  · rw [if_pos hbusy, if_pos hbusy]
    exact congrArg Host.Outcome.next (hostWait_of_busy (s := { s with program := rest }) hbusy)
  · rw [if_neg hbusy, if_neg hbusy]
    exact congrArg Host.Outcome.next (hostWait_of_not_busy (s := { s with program := rest }) hbusy)

end Sys2Proof.Machine
end

section
/-! PROOFS. The bit array: the bit primitives, GET_BIT, SET_BIT and PACKED_BYTES (40_bit_array.md R69 to R77). -/

namespace Sys2Proof.Machine

/-! ### BIT_VALUE and RESULT -/

/-- BIT_VALUE is the one bit SET_BIT writes (10_state.md R26). -/
theorem ofBool_bitValue (s : State) : BitVec.ofBool (bitValue s) = s.cfg.bitValue := by
  rcases BitVec.eq_zero_or_eq_one s.cfg.bitValue with h | h <;> rw [bitValue, h] <;> rfl

theorem bitValue_iff (s : State) : bitValue s = true ↔ s.cfg.bitValue = 1#1 := by
  rw [← ofBool_bitValue]
  cases bitValue s <;> decide

/-- The word GET_BIT writes for a stream bit (40_bit_array.md R73). -/
theorem bitWord_eq_ite (b : Bool) : (BitVec.ofBool b).setWidth 32 = if b then (1 : Word) else 0 := by
  cases b <;> rfl

/-! ### Read after write -/

/-- The bit written is the bit read (40_bit_array.md R76). -/
theorem Memory.getBit_setBit_self {m : Memory} (hm : m.wf) (base i : Nat) (v : Bool) :
    (m.setBit base i v).getBit base i = v := by
  rw [Memory.getBit_setBit hm, if_pos rfl]

/-- The byte `set_bit` writes (40_bit_array.md R70). -/
theorem Memory.read_setBit_self {m : Memory} (hm : m.wf) (base i : Nat) (v : Bool) :
    (m.setBit base i v).read (base + i / 8) = withBit (m.read (base + i / 8)) i v :=
  Memory.read_write_self hm _ _

/-- Settles O16: SET_BIT keeps the registers, so GET_BIT accepts after it and reads the bit written. -/
theorem getBitAfterSetBit : Obligations.GetBitAfterSetBit := by
  refine ⟨fun m base i v hm => Memory.getBit_setBit_self hm base i v, fun s hm ha => ?_⟩
  refine ⟨_, _, execSetBit_eq ha, execGetBit_eq ⟨ha.srcIn, ha.inRange⟩, rfl, ?_⟩
  show (BitVec.ofBool ((s.mem.setBit (srcBase s) (bitIndex s) (bitValue s)).getBit (srcBase s) (bitIndex s))).setWidth 32
    = s.cfg.bitValue.setWidth 32
  rw [Memory.getBit_setBit_self hm, ofBool_bitValue]

/-- Settles O17: a stream bit reads as before unless it is the one written, and a byte unless it holds that bit. -/
theorem setBitIsLocal : Obligations.SetBitIsLocal := by
  intro m base i v hm
  refine ⟨fun j hj => ?_, fun a ha => Memory.read_setBit_other m v ha⟩
  rw [Memory.getBit_setBit hm, if_neg hj]

/-! ### GET_BIT and SET_BIT -/

/-- The index is the second check of GET_BIT and SET_BIT (60_exceptions.md R109). -/
theorem bitCheck_outOfRange {s : State} (hsrc : srcBase s + srcLen s ≤ s.lastAddr.toNat + 1)
    (hrange : 8 * srcLen s ≤ bitIndex s) : bitCheck s = some (.range, s.cfg.bitIndex) := by
  rw [bitCheck, if_neg (not_not.2 ((inMem_iff s _ _).2 hsrc)), if_pos hrange]

/-- Settles O18: where the checks pass RESULT is the stream bit; else the first failing check is raised. -/
theorem getBitCompletes : Obligations.GetBitCompletes := by
  intro s
  refine ⟨fun ha => ?_, fun hsrc => execGetBit_error (bitCheck_srcOutside hsrc),
    fun hsrc hrange => execGetBit_error (bitCheck_outOfRange hsrc hrange)⟩
  rw [execGetBit_eq ha, bitWord_eq_ite]
  rfl

/-- Settles O19: where the checks pass the memory is that after `set_bit`; else the first failing check is raised. -/
theorem setBitCompletes : Obligations.SetBitCompletes := by
  intro s hm
  refine ⟨fun ha => ?_, fun hsrc => execSetBit_error (bitCheck_srcOutside hsrc),
    fun hsrc hrange => execSetBit_error (bitCheck_outOfRange hsrc hrange)⟩
  refine ⟨_, execSetBit_eq ha, rfl, ?_, fun a hne => Memory.read_setBit_other s.mem (bitValue s) hne⟩
  exact (Memory.read_setBit_self hm (srcBase s) (bitIndex s) (bitValue s)).trans
    (if_congr (bitValue_iff s) rfl rfl)

/-! ### PACKED_BYTES -/

/-- PACKED_BYTES on an area within AREA_MAX, zero included (40_bit_array.md R75). -/
theorem execPackedBytes_eq {s : State} (h : area s ≤ Config.areaMax) : exec .packedBytes s = .next (completeOk { s with
    out := { s.out with result := BitVec.ofNat 32 (packedSize s) } }) := by
  rw [exec, execPackedBytes, if_neg (Nat.not_lt_of_le h)]

/-- PACKED_BYTES on a larger area (40_bit_array.md R75). -/
theorem execPackedBytes_error {s : State} (h : area s > Config.areaMax) :
    exec .packedBytes s = .next (raiseError s .dimension 2) := by
  rw [exec, execPackedBytes, if_pos h]

/-- The packed size of an accepted area fits in RESULT (40_bit_array.md R71). -/
theorem packedSize_word_toNat {s : State} (h : s.cfg.width.toNat * s.cfg.height.toNat ≤ 2 ^ 32 - 1) :
    (BitVec.ofNat 32 (packedSize s)).toNat = packedLen s := by
  have hfits : packedLen s ≤ 2 ^ 29 := packedLen_le h
  rw [packedSize_eq, BitVec.toNat_ofNat, Nat.mod_eq_of_lt (by omega)]

/-- Settles O20: RESULT is the packed size, which fits where the area does; a larger area is the one error. -/
theorem packedBytesCompletes : Obligations.PackedBytesCompletes := fun _ =>
  ⟨fun harea => ⟨_, packedSize_word_toNat harea, execPackedBytes_eq harea⟩, execPackedBytes_error⟩

end Sys2Proof.Machine
end

section
/-! PROOFS. The run segmentation: the laws of its runs, and how many tokens it has (41_rle_encode.md R83 to R86). -/

namespace Sys2Proof.Machine

/-! ### The runs -/

/-- The first run has the value of the run in progress. -/
theorem runsFrom_eq_cons (v : Bool) (len : Nat) (bits : List Bool) :
    ∃ len' rs, runsFrom v len bits = (v, len') :: rs := by
  fun_induction runsFrom v len bits with
  | case1 v len => exact ⟨len, [], rfl⟩
  | case2 v len b bits hext ih =>
    obtain ⟨rfl, -⟩ := hext
    exact ih
  | case3 v len b bits _ _ => exact ⟨len, runsFrom b 1 bits, rfl⟩

/-- A run is closed at length 128 at the latest (41_rle_encode.md R83). -/
theorem lengthEncodable_of_mem_runsFrom {v : Bool} {len : Nat} (hlen : lengthEncodable len) (bits : List Bool) :
    ∀ r ∈ runsFrom v len bits, lengthEncodable r.2 := by
  fun_induction runsFrom v len bits with
  | case1 v len => simpa using hlen
  | case2 v len b bits hext ih => exact ih ⟨Nat.le_add_left 1 len, hext.2⟩
  | case3 v len b bits _ ih =>
    rintro r (_ | ⟨_, hr⟩)
    · exact hlen
    · exact ih (by decide) r hr

/-- A run's token stands for its bits (30_encoding.md R61, R62). -/
theorem tokenBits_tokenByte (v : Bool) {len : Nat} (h : lengthEncodable len) :
    tokenBits (tokenByte v len) = List.replicate len v := by
  rw [tokenBits_eq, tokenLength_tokenByte v h, tokenValue_tokenByte v h]

/-- The tokens of the runs stand for the run in progress and the bits still to scan. -/
theorem expand_runsFrom {v : Bool} {len : Nat} (hlen : lengthEncodable len) (bits : List Bool) :
    expand ((runsFrom v len bits).map fun r => tokenByte r.1 r.2) = List.replicate len v ++ bits := by
  fun_induction runsFrom v len bits with
  | case1 v len => simp [tokenBits_tokenByte v hlen]
  | case2 v len b bits hext ih =>
    obtain ⟨rfl, hlt⟩ := hext
    rw [ih ⟨Nat.le_add_left 1 len, hlt⟩, List.replicate_succ', List.append_assoc, List.singleton_append]
  | case3 v len b bits _ ih =>
    rw [List.map_cons, expand_cons, tokenBits_tokenByte v hlen, ih (by decide)]
    rfl

/-- Two adjacent runs have one value only where the first was closed for its length (41_rle_encode.md R83). -/
theorem runsFrom_isChain {v : Bool} {len : Nat} (hlen : lengthEncodable len) (bits : List Bool) :
    (runsFrom v len bits).IsChain fun a b => a.1 = b.1 → a.2 = 128 := by
  fun_induction runsFrom v len bits with
  | case1 v len => exact .singleton _
  | case2 v len b bits hext ih => exact ih ⟨Nat.le_add_left 1 len, hext.2⟩
  | case3 v len b bits hclose ih =>
    have hnext := ih (by decide)
    obtain ⟨len', rs, hrs⟩ := runsFrom_eq_cons b 1 bits
    rw [hrs] at hnext ⊢
    refine List.isChain_cons_cons.2 ⟨fun hv => ?_, hnext⟩
    have hfull : ¬ len < 128 := fun hlt => hclose ⟨hv.symm, hlt⟩
    exact Nat.le_antisymm hlen.2 (Nat.le_of_not_lt hfull)

/-- Where every bit differs from the one before it, every bit starts a run. -/
theorem runsFrom_length_of_alternating {v : Bool} (len : Nat) {bits : List Bool} (h : (v :: bits).IsChain (· ≠ ·)) :
    (runsFrom v len bits).length = bits.length + 1 := by
  fun_induction runsFrom v len bits with
  | case1 v len => rfl
  | case2 v len b bits hext ih => exact absurd hext.1.symm (List.isChain_cons_cons.1 h).1
  | case3 v len b bits _ ih => rw [List.length_cons, ih (List.isChain_cons_cons.1 h).2, List.length_cons]

/-! ### The tokens -/

@[simp] theorem tokensOf_length (bits : List Bool) : (tokensOf bits).length = (runsOf bits).length := List.length_map _

/-- A bitmap has a token (41_rle_encode.md R84). -/
theorem tokensOf_length_pos {bits : List Bool} (h : bits ≠ []) : 1 ≤ (tokensOf bits).length := by
  obtain ⟨b, bits, rfl⟩ := List.exists_cons_of_ne_nil h
  rw [tokensOf_length]
  exact runsFrom_length_pos b 1 bits

/-- 41_rle_encode.md R86 item 2. -/
theorem expand_tokensOf (bits : List Bool) : expand (tokensOf bits) = bits := by
  cases bits with
  | nil => rfl
  | cons b bits => exact expand_runsFrom (by decide) bits

/-- Every token stands for 1 to 128 bits (30_encoding.md R62). -/
theorem expand_length_bounds (toks : List Byte) :
    toks.length ≤ (expand toks).length ∧ (expand toks).length ≤ 128 * toks.length := by
  induction toks with
  | nil => simp
  | cons tok toks ih =>
    obtain ⟨hmin, hmax⟩ := lengthEncodable_tokenLength tok
    rw [Config.maxRun] at hmax
    simp only [expand_cons, List.length_append, tokenBits_length, List.length_cons]
    omega

/-- An alternating bitmap has a token for every bit (41_rle_encode.md R86 item 5). -/
theorem tokensOf_length_of_alternating {bits : List Bool} (h : bits.IsChain (· ≠ ·)) :
    (tokensOf bits).length = bits.length := by
  cases bits with
  | nil => rfl
  | cons b bits =>
    rw [tokensOf_length]
    exact runsFrom_length_of_alternating 1 h

/-- Settles O29: the laws hold of the scan from every run in progress of length 1 to 128, so from the first bit's; the
bounds on T count the bits its tokens stand for. -/
theorem runSegmentationLaws : Obligations.RunSegmentationLaws := by
  intro bits hne
  obtain ⟨hmin, hmax⟩ := expand_length_bounds (tokensOf bits)
  rw [expand_tokensOf] at hmin hmax
  obtain ⟨b, rest, rfl⟩ := List.exists_cons_of_ne_nil hne
  refine ⟨lengthEncodable_of_mem_runsFrom (by decide) rest, expand_tokensOf _,
    fun pre post a b' hruns => ?_, by omega, hmin⟩
  exact List.isChain_iff_forall_rel_of_append_cons_cons.1 (runsFrom_isChain (by decide) rest) hruns

end Sys2Proof.Machine
end

section
/-! PROOFS. COMPRESS: it writes the tokens of the pixel bits where they fit, else it overflows (41_rle_encode.md R79 to
R86). -/

namespace Sys2Proof.Machine

theorem pixelBits_length (s : State) : (pixelBits s).length = area s := by
  rw [pixelBits, streamBits, List.length_map, List.length_range, area_eq]

/-- The capacity fits in ERR_INFO where the area does (40_bit_array.md R71). -/
theorem capacity_word_toNat {s : State} (h : s.cfg.width.toNat * s.cfg.height.toNat ≤ 2 ^ 32 - 1) :
    (BitVec.ofNat 32 (packedLen s - 1)).toNat = packedLen s - 1 := by
  have hfits := packedLen_le h
  rw [BitVec.toNat_ofNat, Nat.mod_eq_of_lt (by omega)]

section
variable {s : State} (ha : CompressAccepts s)
include ha

/-- An accepted image has a byte (40_bit_array.md R71). -/
theorem packedLen_pos_of_accepts : 1 ≤ packedLen s := by
  have hpos : 0 < area s := ha.areaPos
  have hfit := area_le_packedLen s
  omega

/-- T ≤ P - 1: all tokens are written (41_rle_encode.md R81, R85). -/
theorem execCompress_of_fits (hfit : (tokensOf (pixelBits s)).length ≤ packedLen s - 1) :
    exec .compress s = .next (finishCompress
      { s with mem := writeTokens s.mem (dstBase s) (runsOf (pixelBits s)) } (tokensOf (pixelBits s)).length) := by
  rw [tokensOf_length] at hfit ⊢
  rw [execCompress_eq ha, compressEnd, Nat.zero_add, Nat.add_zero, capacity_eq, if_pos hfit]

/-- T ≥ P: the destination window is left with free draws over the tokens that fit (41_rle_encode.md R81, R82). -/
theorem execCompress_of_overflows (hover : packedLen s ≤ (tokensOf (pixelBits s)).length) :
    exec .compress s = .next (raiseError
      (scramble { s with mem := writeTokens s.mem (dstBase s) ((runsOf (pixelBits s)).take (packedLen s - 1)) }
        Window.none (dstBase s) (packedLen s - 1))
      .overflow (BitVec.ofNat 32 (packedLen s - 1))) := by
  have hpos := packedLen_pos_of_accepts ha
  rw [tokensOf_length] at hover
  rw [execCompress_eq ha, compressEnd, Nat.add_zero, Nat.sub_zero, capacity_eq, if_neg (by omega)]

end

/-- The tokens are written to consecutive addresses, and nothing else is written. -/
theorem writeTokens_sameOutside (m : Memory) (a : Nat) (rs : List (Bool × Nat)) :
    SameOutside { base := a, len := rs.length } m (writeTokens m a rs) := fun b hout =>
  read_writeTokens_other m rs (by simp only [Window.contains] at hout; omega)

/-- Settles O26: the tokens fit, so the loop writes them all. -/
theorem compressWritesTheRunTokens : Obligations.CompressWritesTheRunTokens := by
  intro s hm ha hfit
  have hexec := execCompress_of_fits ha hfit
  rw [tokensOf_length] at hexec ⊢
  exact ⟨_, hexec, rfl, bytesAt_writeTokens hm _ _, writeTokens_sameOutside _ _ _⟩

/-- Settles O27: the abort covers the whole window with free draws, and COMPRESS writes nowhere else. -/
theorem compressOverflowAborts : Obligations.CompressOverflowAborts := by
  intro s hm ha hover
  have hexec := execCompress_of_overflows ha hover
  refine ⟨_, hexec, rfl, fun j hj => ?_, exec_sameOutside hexec⟩
  exact Memory.read_scramble_inside (writeTokens_wf hm _ _) _ _ _ _ j hj (Window.none_contains _)

/-- Settles O28: the two ends of COMPRESS, of which T decides. -/
theorem compressCompletesExactlyBelowP : Obligations.CompressCompletesExactlyBelowP := by
  intro s ha
  have hpos := packedLen_pos_of_accepts ha
  rcases Nat.lt_or_ge (tokensOf (pixelBits s)).length (packedLen s) with hlt | hover
  · have hfit := Nat.le_sub_one_of_lt hlt
    exact ⟨_, execCompress_of_fits ha hfit, iff_of_true rfl hfit, iff_of_false nofun (Nat.not_le_of_lt hlt), nofun⟩
  · exact ⟨_, execCompress_of_overflows ha hover, iff_of_false nofun (by omega), iff_of_true rfl hover,
      fun _ => capacity_word_toNat ha.areaMax⟩

/-- Settles O31: such a bitmap has n tokens, and n is at least P. -/
theorem alternatingBitmapOverflows : Obligations.AlternatingBitmapOverflows := by
  intro s ha halt
  have hchain : (pixelBits s).IsChain (· ≠ ·) :=
    (List.isChain_map _).2 ((List.isChain_range _ _).2 fun i hi => halt i (by omega))
  have hcount := tokensOf_length_of_alternating hchain
  have hpos := packedLen_pos_of_accepts ha
  have hlen := packedLen_lt s
  rw [pixelBits_length] at hcount
  obtain ⟨t, ht, -, hover, hinfo⟩ := compressCompletesExactlyBelowP s ha
  have herr := hover.2 (by omega)
  exact ⟨t, ht, herr, hinfo herr⟩

/-- The image of at most 8 pixels takes one byte, so its capacity is 0 (41_rle_encode.md R81). -/
theorem packedLen_of_eightPixels {s : State} (hpos : 0 < s.cfg.width.toNat * s.cfg.height.toNat)
    (h : s.cfg.width.toNat * s.cfg.height.toNat ≤ 8) : packedLen s = 1 := by
  rw [packedLen]
  omega

/-- Settles O30: the capacity is 0 and there is a token; the empty window is still checked (log entry 16). -/
theorem eightPixelsOverflow : Obligations.EightPixelsOverflow := by
  intro s hflags hpos h8 hsrc
  have hlen := packedLen_of_eightPixels hpos h8
  have hmax : s.cfg.width.toNat * s.cfg.height.toNat ≤ 2 ^ 32 - 1 := by omega
  constructor
  · intro hdst
    have ha : CompressAccepts s := by
      refine ⟨hflags, hpos, hmax, hsrc, ?_, ?_⟩ <;> simp only [hlen] <;> omega
    have hne : pixelBits s ≠ [] := by
      rw [← List.length_pos_iff, pixelBits_length]
      exact hpos
    have hexec := execCompress_of_overflows ha (hlen ▸ tokensOf_length_pos hne)
    rw [hlen] at hexec
    exact hexec
  · intro hdst
    refine execCompress_error (codecCheck_dstOutside hflags hpos hmax hsrc ?_)
    show dstBase s + (packedLen s - 1) > _
    rw [hlen]
    exact hdst

/-! ### What the output depends on -/

/-- Equal bytes from two addresses on are equal one by one. -/
theorem read_eq_of_bytesAt_eq {m m' : Memory} {a a' count : Nat} (h : bytesAt m a count = bytesAt m' a' count) :
    ∀ k < count, m.read (a + k) = m'.read (a' + k) := fun k hk =>
  List.map_inj_left.1 h k (List.mem_range.2 hk)

/-- Settles O32: P and the pixel bits are the same, so T is, and both machines write the tokens or both overflow. -/
theorem compressDependsOnPixelsOnly : Obligations.CompressDependsOnPixelsOnly := by
  intro s u hms hmu has hau hwidth hheight hbits
  have hlen : packedLen u = packedLen s := by rw [packedLen, packedLen, hwidth, hheight]
  have hpix : pixelBits u = pixelBits s := by
    rw [pixelBits, pixelBits, ← hwidth, ← hheight]
    exact List.map_congr_left fun i hi => (hbits i (List.mem_range.1 hi)).symm
  rcases Nat.lt_or_ge (tokensOf (pixelBits s)).length (packedLen s) with hlt | hover
  · have hfit := Nat.le_sub_one_of_lt hlt
    obtain ⟨t, ht, hts, htoks, -⟩ := compressWritesTheRunTokens s hms has hfit
    obtain ⟨v, hv, hvs, hvtoks, -⟩ := compressWritesTheRunTokens u hmu hau (by rwa [hpix, hlen])
    rw [hpix] at hvs hvtoks
    refine ⟨t, v, ht, hv, by rw [hts, hvs], fun hout => by rw [hts, hvs, hout], fun _ => ?_⟩
    refine ⟨by rw [hts, hvs], by rw [hts, hvs], by rw [hts, hvs], fun k hk => ?_⟩
    rw [hts, BitVec.toNat_ofNat] at hk
    exact read_eq_of_bytesAt_eq (htoks.trans hvtoks.symm) k (Nat.lt_of_lt_of_le hk (Nat.mod_le _ _))
  · obtain ⟨t, ht, hts, -⟩ := compressOverflowAborts s hms has hover
    obtain ⟨v, hv, hvs, -⟩ := compressOverflowAborts u hmu hau (by rwa [hpix, hlen])
    rw [hlen] at hvs
    exact ⟨t, v, ht, hv, by rw [hts, hvs]; rfl, fun hout => by rw [hts, hvs, raiseError, raiseError, hout],
      fun hok => by rw [hts] at hok; cases hok⟩

end Sys2Proof.Machine
end

section
/-! PROOFS. DECOMPRESS and the run tokens: the bitmap they write, the length errors that end them, and the way back from
COMPRESS (42_rle_decode.md R87 to R95). -/

namespace Sys2Proof.Machine

/-! ### A command that ends in a length error -/

/-- Whatever the tokens before it have written, a length error leaves a free draw in each byte of the destination window
(42_rle_decode.md R92; log entry 3). -/
theorem lengthError_freeInside (s : State) {m : Memory} (hm : m.wf) (code : ErrCode) (info : Nat) :
    FreeInside (dstWindow s .decompress) s.draws (lengthError { s with mem := m } code info).mem := fun j hj =>
  Memory.read_scramble_inside hm _ _ _ _ j hj (Window.none_contains _)

/-- Beside the memory a length error changes what `raise Error` does, and P bytes are drawn (42_rle_decode.md R92). -/
theorem lengthError_eq (s : State) (m : Memory) (code : ErrCode) (info : Nat) :
    lengthError { s with mem := m } code info = { raiseError s code (BitVec.ofNat 32 info) with
      mem := (lengthError { s with mem := m } code info).mem, draws := s.draws + packedLen s } := rfl

theorem sourceTokens_length (s : State) : (sourceTokens s).length = srcLen s := by
  rw [sourceTokens, bytesAt, List.length_map, List.length_range, srcLen]

/-- Token k is the first to pass the last pixel: the command ends there, tokens 0 .. k - 1 written
(42_rle_decode.md R90). -/
theorem execDecompress_of_overrun {s : State} {k : Nat} (ha : DecompressAccepts s) (hk : k < srcLen s)
    (hfit : (expand ((sourceTokens s).take k)).length ≤ area s)
    (hover : area s < (expand ((sourceTokens s).take (k + 1))).length) :
    exec .decompress s = .next (lengthError
      { s with mem := writeRuns s.mem (dstBase s) 0 ((sourceTokens s).take k) } .overrun k) := by
  have hk' : k < (sourceTokens s).length := (sourceTokens_length s).symm ▸ hk
  have hsplit : (sourceTokens s).take k ++ (sourceTokens s)[k] :: (sourceTokens s).drop (k + 1) = sourceTokens s := by
    rw [List.getElem_cons_drop, List.take_append_drop]
  rw [List.take_add_one, List.getElem?_eq_getElem hk', expand_append, List.length_append] at hover
  have hend := decompressEnd_overrun s { k := 0, pos := 0 } ((sourceTokens s).take k) ((sourceTokens s).drop (k + 1))
    (sourceTokens s)[k] (by simpa using hfit) (by simpa using hover)
  rw [hsplit, Nat.zero_add, List.length_take_of_le (Nat.le_of_lt hk')] at hend
  rw [execDecompress_eq ha, hend]

/-- Settles O34: the token that passes the last pixel ends the command, and what the ones before it wrote is freed. -/
theorem decompressOverrun : Obligations.DecompressOverrun := by
  intro s k hm ha hk hfit hover
  have hexec := execDecompress_of_overrun ha hk hfit hover
  exact ⟨_, hexec, lengthError_eq s _ _ _, lengthError_freeInside s (writeRuns_wf hm _ _ _) _ _,
    exec_sameOutside hexec⟩

/-! ### A command that completes -/

/-- All n pixels are produced: the pad bits are cleared and the results written (42_rle_decode.md R93). -/
theorem finishDecompress_of_full {s : State} {d : Decoder} (h : area s ≤ d.pos) :
    finishDecompress s d = completeOk { s with
      mem := s.mem.setBits (dstBase s) (area s) (8 * packedSize s - area s) false
      out := { s.out with result := BitVec.ofNat 32 (packedSize s), outFlags := flagsBitmap, outCsize := 0 } } :=
  if_neg (Nat.not_lt_of_le h)

theorem finishDecompress_ok_iff (s : State) (d : Decoder) : (finishDecompress s d).err = .ok ↔ area s ≤ d.pos := by
  rcases Nat.lt_or_ge d.pos (area s) with hshort | hfull
  · rw [finishDecompress, if_pos hshort]
    exact iff_of_false nofun (Nat.not_le_of_lt hshort)
  · rw [finishDecompress_of_full hfull]
    exact iff_of_true rfl hfull

/-- The tokens left complete the command exactly when their lengths sum to the pixels left (42_rle_decode.md R91,
R94). -/
theorem decompressEnd_ok_iff (s : State) (d : Decoder) (ts : List Byte) (hpos : d.pos ≤ area s) :
    (decompressEnd s d ts).err = .ok ↔ d.pos + (expand ts).length = area s := by
  induction ts generalizing s d with
  | nil =>
    rw [decompressEnd, finishDecompress_ok_iff, expand_nil, List.length_nil, Nat.add_zero]
    exact ⟨Nat.le_antisymm hpos, Nat.le_of_eq ∘ Eq.symm⟩
  | cons t ts ih =>
    rw [decompressEnd, expand_cons, List.length_append, tokenBits_length, ← Nat.add_assoc]
    split
    · exact iff_of_false nofun (by omega)
    · next hfit =>
      exact ih { s with mem := s.mem.setBits (dstBase s) d.pos (tokenLength t) (tokenValue t) } _
        (Nat.le_of_not_lt hfit)

/-- Settles O36: all the tokens are left and none of the pixels is produced. -/
theorem decompressCompletesExactlyOnSumN : Obligations.DecompressCompletesExactlyOnSumN := by
  intro s ha
  have hend := decompressEnd_ok_iff s { k := 0, pos := 0 } (sourceTokens s) (Nat.zero_le _)
  rw [Nat.zero_add] at hend
  exact ⟨_, execDecompress_eq ha, hend⟩

/-- The memory with the runs of the source tokens and the pad bits cleared (42_rle_decode.md R93). -/
def bitmapMemory (s : State) : Memory :=
  (writeRuns s.mem (dstBase s) 0 (sourceTokens s)).setBits (dstBase s) (area s) (8 * packedLen s - area s) false

section
variable {s : State} (hsum : (expand (sourceTokens s)).length = area s)
include hsum

/-- The token lengths sum to n: all the runs are written and the pad bits cleared (42_rle_decode.md R91, R93). -/
theorem execDecompress_of_sum (ha : DecompressAccepts s) : exec .decompress s = .next (completeOk { s with
    mem := bitmapMemory s
    out := { s.out with result := BitVec.ofNat 32 (packedLen s), outFlags := flagsBitmap, outCsize := 0 } }) := by
  have hfull : 0 + (expand (sourceTokens s)).length = area s := by rw [Nat.zero_add, hsum]
  rw [execDecompress_eq ha, decompressEnd_fits s _ _ (Nat.le_of_eq hfull),
    finishDecompress_of_full (Nat.le_of_eq hfull.symm)]
  rfl

/-- The bits of the bitmap are the expansion, then the pad bits (42_rle_decode.md R93). -/
theorem getBit_bitmapMemory (hm : s.mem.wf) {j : Nat} (hj : j < 8 * packedLen s) :
    (bitmapMemory s).getBit (dstBase s) j = (expand (sourceTokens s)).getD j false := by
  rw [bitmapMemory, Memory.getBit_setBits (writeRuns_wf hm _ _ _), getBit_writeRuns hm]
  by_cases hpix : j < area s
  · rw [if_neg (by omega), if_pos (by omega), Nat.sub_zero]
  · rw [if_pos (by omega), List.getD_eq_default _ _ (by omega)]

end

/-- A stream is the list it agrees with bit by bit. -/
theorem streamBits_eq_of_getBit {m : Memory} {base : Nat} {bits : List Bool}
    (h : ∀ j < bits.length, m.getBit base j = bits.getD j false) : streamBits m base bits.length = bits := by
  refine List.ext_getElem (by simp [streamBits]) fun j h1 h2 => ?_
  simpa [streamBits, h2] using h j h2

/-- Settles O33: the runs fill the n pixels, and the pad bits are what is left of the P bytes. -/
theorem decompressWritesTheBitmap : Obligations.DecompressWritesTheBitmap := by
  intro s hm ha hsum
  have hexec := execDecompress_of_sum hsum ha
  have hfit := area_le_packedLen s
  rw [area_eq] at hfit
  refine ⟨_, hexec, rfl, ?_, fun q hq hpad => ?_, exec_sameOutside hexec⟩
  · rw [← hsum]
    exact streamBits_eq_of_getBit fun j hj => getBit_bitmapMemory hsum hm (by omega)
  · exact (getBit_bitmapMemory hsum hm hpad).trans (List.getD_eq_default _ _ (hsum ▸ hq))

/-! ### The way back from COMPRESS -/

/-- Two ranges of bytes are equal exactly when their stream bits are (40_bit_array.md R69). -/
theorem read_eq_iff_getBit_eq (m m' : Memory) (a a' count : Nat) :
    (∀ j < count, m.read (a + j) = m'.read (a' + j)) ↔ ∀ q < 8 * count, m.getBit a q = m'.getBit a' q := by
  constructor
  · intro hbytes q hq
    rw [Memory.getBit, Memory.getBit, hbytes (q / 8) (by omega)]
  · intro hbits j hj
    refine BitVec.eq_of_getLsbD_eq fun i hi => ?_
    have hbit := hbits (8 * j + (7 - i)) (by omega)
    rwa [Memory.getBit, Memory.getBit, show (8 * j + (7 - i)) / 8 = j by omega,
      show 7 - (8 * j + (7 - i)) % 8 = i by omega] at hbit

/-- A COMPRESS that completes OK has left the tokens of its pixel bits, OUT_CSIZE of them, at DST_ADDR (41_rle_encode.md
R85). -/
theorem compress_tokens_of_ok {s t : State} (hm : s.mem.wf) (ha : CompressAccepts s) (ht : exec .compress s = .next t)
    (hok : t.err = .ok) : bytesAt t.mem (dstBase s) t.out.outCsize.toNat = tokensOf (pixelBits s) := by
  obtain ⟨t', ht', hiff, -⟩ := compressCompletesExactlyBelowP s ha
  cases ht.symm.trans ht'
  have hfit := hiff.1 hok
  obtain ⟨t', ht', hts, htoks, -⟩ := compressWritesTheRunTokens s hm ha hfit
  cases ht.symm.trans ht'
  have hmax := packedLen_le ha.areaMax
  have hcount : t.out.outCsize.toNat = (tokensOf (pixelBits s)).length := by
    rw [hts, BitVec.toNat_ofNat, Nat.mod_eq_of_lt (by omega)]
  rw [hcount]
  exact htoks

/-- Settles O37: the tokens expand to the pixel bits they were made from, so O33 gives these back; the two bitmaps then
differ at most in the pad bits. -/
theorem decompressUndoesCompress : Obligations.DecompressUndoesCompress := by
  intro s t u hms has ht hok hmu hau hwidth hheight hsize hread
  have hlen : packedLen u = packedLen s := by rw [packedLen, packedLen, hwidth, hheight]
  have htoks : sourceTokens u = tokensOf (pixelBits s) := by
    rw [← compress_tokens_of_ok hms has ht hok, sourceTokens, hsize]
    exact List.map_congr_left fun k hk => hread k (List.mem_range.1 hk)
  have hexpand : expand (sourceTokens u) = pixelBits s := by rw [htoks, expand_tokensOf]
  obtain ⟨r, hr, hrs, hbits, hpad, -⟩ := decompressWritesTheBitmap u hmu hau
    (by rw [hexpand, pixelBits_length, area_eq, hwidth, hheight])
  rw [hexpand, hwidth, hheight] at hbits
  rw [hwidth, hheight, hlen] at hpad
  have hpix : ∀ i < s.cfg.width.toNat * s.cfg.height.toNat,
      r.mem.getBit u.cfg.dstAddr.toNat i = s.mem.getBit s.cfg.srcAddr.toNat i := fun i hi =>
    List.map_inj_left.1 hbits i (List.mem_range.2 hi)
  refine ⟨r, hr, by rw [hrs], hpix, hpad, ?_⟩
  rw [read_eq_iff_getBit_eq]
  constructor
  · intro hsame q hq hlt
    rw [← hsame q hlt, hpad q hq hlt]
  · intro hzero q hlt
    rcases Nat.lt_or_ge q (s.cfg.width.toNat * s.cfg.height.toNat) with hq | hq
    · exact hpix q hq
    · rw [hpad q hq hlt, hzero q hq hlt]

/-! ### Run tokens as instructions -/

section
variable (v : Bool) {len : Nat} {s : State} {d : Decoder} (hs : s.seq = .decoding d) (hr : decoderReady s d = true)
  (hk : d.k < srcLen s)
include hs hr hk

/-- A token whose run fits is written, and the decoder goes on (42_rle_decode.md R88, R89). -/
theorem exec_token_of_fits (hfit : d.pos + len ≤ area s) :
    exec (if v then .run1 len else .run0 len) s = .next { s with
      mem := s.mem.setBits (dstBase s) d.pos len v
      seq := .decoding { k := d.k + 1, pos := d.pos + len } } := by
  rw [exec_token, execToken_ready v len hs hr hk, runToken, if_neg (Nat.not_lt_of_le hfit)]

/-- A token whose run passes the last pixel ends the command (42_rle_decode.md R90). -/
theorem exec_token_of_overrun (hover : area s < d.pos + len) :
    exec (if v then .run1 len else .run0 len) s = .next (lengthError s .overrun d.k) := by
  rw [exec_token, execToken_ready v len hs hr hk, runToken, if_pos hover]

end

/-- Settles O38: the run's bits are written, all of them at DST_ADDR or above. -/
theorem runTokenAppendsItsRun : Obligations.RunTokenAppendsItsRun := by
  intro s d v len hm hs hr hk _ _ hfit
  refine ⟨_, exec_token_of_fits v hs hr hk hfit, rfl, fun j => Memory.getBit_setBits hm _ _ _ j v, fun a ha => ?_⟩
  exact Memory.read_setBits_other _ _ fun j _ _ => Nat.ne_of_lt (Nat.lt_add_right _ ha)

/-- Settles O39: the token ends the command in a length error, before which it has written nothing. -/
theorem runTokenOverruns : Obligations.RunTokenOverruns := by
  intro s d v len hm hs hr hk _ _ hover
  exact ⟨_, exec_token_of_overrun v hs hr hk hover, lengthError_eq s s.mem _ _, lengthError_freeInside s hm _ _,
    lengthError_sameOutside s _ _⟩

/-- A run token outside a DECOMPRESS in progress with a token left (42_rle_decode.md R89; log entry 9). -/
theorem execToken_refused (v : Bool) (len : Nat) {s : State}
    (h : ∀ d, s.seq = .decoding d → ¬ (decoderReady s d = true ∧ d.k < srcLen s)) :
    execToken v len s = .refused .noCommandInProgress := by
  unfold execToken
  split
  · next d hs => exact if_neg (h d hs)
  · rfl
  · rfl

/-- Settles O40: both tokens are the one meaning of a token, which asks for such a DECOMPRESS. -/
theorem runTokenNeedsDecompressInProgress : Obligations.RunTokenNeedsDecompressInProgress := fun _ len h =>
  ⟨execToken_refused false len h, execToken_refused true len h⟩

/-- Settles O45: the step is the core's internal action, which is exec of the token it fetches. -/
theorem stepRunsTheNextToken : Obligations.StepRunsTheNextToken := by
  intro s d hreset hturn hb hs hk
  rw [step_of_coreUnit hreset hturn]
  exact coreUnit_of_token (s := takeTurn s) hb hs hk

end Sys2Proof.Machine
end

section
/-! PROOFS. The error completions: what each check finds, the words that are no command, the streams that end too soon,
and the operands that stay as they are until the command has ended (60_exceptions.md R96 to R119). -/

namespace Sys2Proof.Machine

/-! ### A stream that ends too soon -/

/-- Fewer than n pixels are produced when the tokens are used up (42_rle_decode.md R91). -/
theorem finishDecompress_of_short {s : State} {d : Decoder} (h : d.pos < area s) :
    finishDecompress s d = lengthError s .underrun d.pos :=
  if_pos h

/-- The T tokens give fewer than n bits: all their runs are written, and the command ends after the last one
(42_rle_decode.md R91). -/
theorem execDecompress_of_underrun {s : State} (ha : DecompressAccepts s)
    (hshort : (expand (sourceTokens s)).length < area s) :
    exec .decompress s = .next (lengthError { s with mem := writeRuns s.mem (dstBase s) 0 (sourceTokens s) }
      .underrun (expand (sourceTokens s)).length) := by
  have hpos : 0 + (expand (sourceTokens s)).length < area s := by rwa [Nat.zero_add]
  rw [execDecompress_eq ha, decompressEnd_fits s _ _ (Nat.le_of_lt hpos), finishDecompress_of_short hpos]
  simp only [Nat.zero_add]

/-- Settles O35: the tokens fit and leave pixels over, and what they wrote is freed. -/
theorem decompressUnderrun : Obligations.DecompressUnderrun := by
  intro s hm ha hshort
  have hexec := execDecompress_of_underrun ha hshort
  exact ⟨_, hexec, lengthError_eq s _ _ _, lengthError_freeInside s (writeRuns_wf hm _ _ _) _ _,
    exec_sameOutside hexec⟩

/-! ### A word that is no command -/

/-- The core step of a word that does not decode (60_exceptions.md R98). -/
theorem coreStep_of_undefined {s : State} {e : DecodeError} (hb : s.phase = .busy) (hs : s.seq = .off)
    (hd : decodeCommand s.latchedCmd = .error e) : coreStep s = .next (raiseError s .opcode s.latchedCmd) := by
  rw [coreStep_off hb hs, runLatched, hd, illegalCommand]

/-- Settles O14: a word other than the five of R60 does not decode. -/
theorem illegalWordEndsInErrOpcode : Obligations.IllegalWordEndsInErrOpcode := by
  intro s hb hs h1 h2 h3 h4 h5
  cases hd : decodeCommand s.latchedCmd with
  | error e => exact coreStep_of_undefined hb hs hd
  | ok i =>
    obtain ⟨-, -, -, -, -, hfive⟩ := onlyTheFiveWordsAreCommands s.latchedCmd
    rcases hfive.1 ⟨i, hd⟩ with h | h | h | h | h
    exacts [absurd h h1, absurd h h2, absurd h h3, absurd h h4, absurd h h5]

/-! ### The checks of the codec commands -/

/-- FLAGS come first of the checks (60_exceptions.md R99, R109). -/
theorem codecCheck_wrongFlags {s : State} {f : BitVec 2} (h : s.cfg.flags ≠ f) (src dst : Window) :
    codecCheck s f src dst = some (.format, s.cfg.flags.setWidth 32) := by
  rw [codecCheck, if_pos h]

/-- Settles O23: FLAGS are the first check of both commands, whatever the later ones would find. -/
theorem wrongFlagsAreErrFormat : Obligations.WrongFlagsAreErrFormat := fun _ =>
  ⟨fun h => execCompress_error (codecCheck_wrongFlags h _ _),
    fun h => execDecompress_error (codecCheck_wrongFlags h _ _)⟩

/-- With the right FLAGS zero area is found next (60_exceptions.md R100). -/
theorem codecCheck_zeroArea {s : State} (hzero : s.cfg.width.toNat * s.cfg.height.toNat = 0) (src dst : Window) :
    codecCheck s s.cfg.flags src dst = some (.dimension, 1) := by
  rw [codecCheck, if_neg (not_not.2 rfl), area_eq, if_pos hzero]

/-- With the right FLAGS an area past 2^32 - 1 is found next (60_exceptions.md R100). -/
theorem codecCheck_areaOverflow {s : State} (hover : 2 ^ 32 - 1 < s.cfg.width.toNat * s.cfg.height.toNat)
    (src dst : Window) : codecCheck s s.cfg.flags src dst = some (.dimension, 2) := by
  have hzero : area s ≠ 0 := Nat.ne_zero_of_lt hover
  have hmax : area s > Config.areaMax := hover
  rw [codecCheck, if_neg (not_not.2 rfl), if_neg hzero, if_pos hmax]

/-- Windows that share an address overlap (20_memory.md R48). -/
theorem overlap_of_contains {src dst : Window} {a : Nat} (hsrc : src.contains a) (hdst : dst.contains a) :
    overlap src.base src.len dst.base dst.len = true := by
  rw [← Bool.not_eq_false, overlap_false_iff]
  omega

/-- Both windows in the memory, their overlap is found last (60_exceptions.md R102, R109). -/
theorem codecCheck_overlap {s : State} {src dst : Window} {a : Nat}
    (hpos : 0 < s.cfg.width.toNat * s.cfg.height.toNat) (hmax : s.cfg.width.toNat * s.cfg.height.toNat ≤ 2 ^ 32 - 1)
    (hsrc : src.base + src.len ≤ s.lastAddr.toNat + 1) (hdst : dst.base + dst.len ≤ s.lastAddr.toNat + 1)
    (hsrca : src.contains a) (hdsta : dst.contains a) : codecCheck s s.cfg.flags src dst = some (.overlap, 0) := by
  rw [codecCheck_windows rfl hpos hmax, if_neg (not_not.2 ((inMem_iff s _ _).2 hsrc)),
    if_neg (not_not.2 ((inMem_iff s _ _).2 hdst)), if_pos (overlap_of_contains hsrca hdsta)]

/-- A codec command whose FLAGS are right ends as its other checks say. -/
theorem execCodec_error {s : State} {i : Instr} {c : ErrCode} {info : Word}
    (hi : (i = .compress ∧ s.cfg.flags = 0b00) ∨ (i = .decompress ∧ s.cfg.flags = 0b01))
    (h : codecCheck s s.cfg.flags (srcWindow s i) (dstWindow s i) = some (c, info)) :
    exec i s = .next (raiseError s c info) := by
  rcases hi with ⟨rfl, hflags⟩ | ⟨rfl, hflags⟩ <;> rw [hflags] at h
  · exact execCompress_error h
  · exact execDecompress_error h

/-- Settles O25: the overlap is the one check that fails. -/
theorem overlappingWindowsAreErrOverlap : Obligations.OverlappingWindowsAreErrOverlap := by
  rintro s i hi hpos hmax hsrc hdst ⟨a, hsrca, hdsta⟩
  exact execCodec_error hi (codecCheck_overlap hpos hmax hsrc hdst hsrca hdsta)

/-! ### The area -/

/-- GET_BIT and SET_BIT check their window and the bit's place in it (60_exceptions.md R109). -/
theorem bitCheck_ne_dimension {s : State} {c : ErrCode} {info : Word} (h : bitCheck s = some (c, info)) :
    c ≠ .dimension := by
  unfold bitCheck at h
  split at h
  · cases h; decide
  · split at h <;> cases h
    decide

/-- GET_BIT and SET_BIT do not read the dimensions (60_exceptions.md R100). -/
theorem execBit_err_ne_dimension {s t : State} (h : exec .getBit s = .next t ∨ exec .setBit s = .next t) :
    t.err ≠ .dimension := by
  cases hc : bitCheck s with
  | some p =>
    rw [execGetBit_error hc, execSetBit_error hc, or_self] at h
    cases h
    exact bitCheck_ne_dimension hc
  | none =>
    have ha := (bitCheck_none_iff s).1 hc
    rw [execGetBit_eq ha, execSetBit_eq ha] at h
    rcases h with h | h <;> cases h <;> exact nofun

/-- Settles O24: the area is the second check of a codec command and the only one of PACKED_BYTES, where 0 passes. -/
theorem badAreaIsErrDimension : Obligations.BadAreaIsErrDimension := by
  refine ⟨fun s i hi => ⟨fun hzero => ?_, fun hover => ?_⟩,
    fun s => ⟨execPackedBytes_error, fun hzero => ?_⟩, fun s t => execBit_err_ne_dimension⟩
  · exact execCodec_error hi (codecCheck_zeroArea hzero _ _)
  · exact execCodec_error hi (codecCheck_areaOverflow hover _ _)
  · have harea : area s ≤ Config.areaMax := (Nat.le_of_eq hzero).trans (Nat.zero_le _)
    exact ⟨_, execPackedBytes_eq harea, rfl⟩

/-! ### The operands while BUSY -/

/-- The operands of the running command, and the memory's size, are the same (10_state.md R35, R38). -/
structure OperandsKept (s t : State) : Prop where
  cfg : t.cfg = s.cfg
  latchedCmd : t.latchedCmd = s.latchedCmd
  lastAddr : t.lastAddr = s.lastAddr

theorem CoreFrame.operandsKept {s t : State} (h : CoreFrame s t) : OperandsKept s t :=
  ⟨h.cfg, h.latchedCmd, h.lastAddr⟩

section
variable {s t : State}

theorem hostMemRead_operandsKept {addr : Word} (h : hostMemRead s addr = .next t) : OperandsKept s t := by
  unfold hostMemRead at h
  split at h
  · cases h
  · split at h <;> cases h <;> exact ⟨rfl, rfl, rfl⟩

theorem hostMemWrite_operandsKept {addr : Word} {v : Byte} (h : hostMemWrite s addr v = .next t) :
    OperandsKept s t := by
  unfold hostMemWrite at h
  split at h
  · cases h
  · split at h <;> cases h
    exact ⟨rfl, rfl, rfl⟩

/-- While BUSY the host's register writes are ignored, and nothing else it does reaches an operand (10_state.md R35). -/
theorem hostOp_operandsKept {op : HostOp} (hb : s.phase = .busy) (h : hostOp s op = .next t) : OperandsKept s t := by
  cases op with
  | regRead offset bytes =>
    cases hr : accessedReg offset bytes with
    | none =>
      rw [(hostReg_refused hr 0).1] at h
      cases h
    | some r =>
      obtain ⟨u, hu, hstate⟩ := hostRegRead_of_reg (s := s) hr
      cases hu.symm.trans h
      rw [hstate]
      exact ⟨rfl, rfl, rfl⟩
  | regWrite offset bytes c =>
    cases hr : accessedReg offset bytes with
    | none =>
      rw [(hostReg_refused hr c).2] at h
      cases h
    | some r =>
      rw [hostRegWrite_of_reg hr, writeReg_busy hb] at h
      cases h
      exact ⟨rfl, rfl, rfl⟩
  | wait =>
    rw [hostOp, hostWait_of_busy hb] at h
    cases h
    exact ⟨rfl, rfl, rfl⟩
  | memRead addr => exact hostMemRead_operandsKept h
  | memWrite addr v => exact hostMemWrite_operandsKept h
  | assertReset =>
    cases h
    exact ⟨rfl, rfl, rfl⟩

theorem hostStep_operandsKept (hb : s.phase = .busy) (h : hostStep s = .next t) : OperandsKept s t := by
  cases hprog : s.program with
  | nil =>
    rw [hostStep, hprog] at h
    cases h
    exact ⟨rfl, rfl, rfl⟩
  | cons op rest =>
    rw [hostStep_of_program hprog] at h
    obtain ⟨hcfg, hcmd, hlast⟩ := hostOp_operandsKept (s := { s with program := rest }) hb h
    exact ⟨hcfg, hcmd, hlast⟩

theorem move_operandsKept {turn : Turn} (hb : s.phase = .busy) (h : move turn s = .next t) : OperandsKept s t := by
  cases turn with
  | host => exact hostStep_operandsKept hb h
  | core => exact (coreStep_coreFrame h).operandsKept
  | coreUnit => exact (coreUnit_coreFrame h).operandsKept

/-- While IDLE the core does nothing (60_exceptions.md R119). -/
theorem coreStep_idle (h : s.phase = .idle) : coreStep s = .next s := by
  rw [coreStep, h]

theorem coreUnit_idle (h : s.phase = .idle) : coreUnit s = .next s := by
  rw [coreUnit, h]

end

theorem step_of_not_reset {s : State} (hreset : s.resetIn = false) : step s = move (nextTurn s) (takeTurn s) := by
  rw [step, hreset]
  rfl

/-- Settles O47: the step is the move of some agent, once the turn is taken, and taking it changes no operand. -/
theorem idleCoreRestsAndBusyFixesOperands : Obligations.IdleCoreRestsAndBusyFixesOperands := by
  refine ⟨fun s hidle => ⟨coreStep_idle hidle, coreUnit_idle hidle⟩, fun s t hb hreset ht => ?_⟩
  rw [step_of_not_reset hreset] at ht
  obtain ⟨hcfg, hcmd, hlast⟩ := move_operandsKept (s := takeTurn s) hb ht
  exact ⟨hcfg, hcmd, hlast⟩

end Sys2Proof.Machine
end

section
/-! PROOFS. The host in an open BUSY interval: where it opens and ends, which host writes it refuses and which host reads it
makes free (70_reset_and_hazards.md R126). -/

namespace Sys2Proof.Machine

/-- The destination windows of the open BUSY intervals (70_reset_and_hazards.md R126). -/
theorem inOpenDst_iff (s : State) (a : Nat) : inOpenDst s a = true ↔ ∃ w ∈ s.unobserved, w.dst.contains a := by
  simp only [inOpenDst, List.any_eq_true, decide_eq_true_eq]

/-- A read of STATUS ends the open intervals where it reads BUSY = 0 (log entry 10). -/
theorem observeStatus_unobserved (s : State) :
    (observeStatus s).unobserved = if s.phase = .idle then [] else s.unobserved := by
  cases hphase : s.phase <;> simp [observeStatus, hphase]

section
variable {s : State} {addr : Word}

/-- A destination byte of an open interval reads as a free value (log entries 3 and 10). -/
theorem hostMemRead_of_open (haddr : addr.toNat < memBytes s) (hopen : inOpenDst s addr.toNat = true) :
    hostOp s (.memRead addr) = .next { s with
      seen := .mem addr (Config.freeByte s.draws) :: s.seen, draws := s.draws + 1 } := by
  rw [hostOp, hostMemRead, if_neg (Nat.not_le_of_lt haddr), if_pos hopen]

/-- Any other byte reads as what the memory holds (20_memory.md R49). -/
theorem hostMemRead_of_closed (haddr : addr.toNat < memBytes s) (hclosed : ¬ inOpenDst s addr.toNat = true) :
    hostOp s (.memRead addr) = .next { s with seen := .mem addr (s.mem.read addr.toNat) :: s.seen } := by
  rw [hostOp, hostMemRead, if_neg (Nat.not_le_of_lt haddr), if_neg hclosed]

/-- A write into a window of an open interval is refused (70_reset_and_hazards.md R126). -/
theorem hostMemWrite_of_open (haddr : addr.toNat < memBytes s) (hopen : inOpenWindow s addr.toNat = true) (v : Byte) :
    hostOp s (.memWrite addr v) = .refused (.windowHazard addr) := by
  rw [hostOp, hostMemWrite, if_neg (Nat.not_le_of_lt haddr), if_pos hopen]

end

/-- Settles O53: the address exists, and the read asks only whether an open destination window holds it. -/
theorem hostMemoryRead : Obligations.HostMemoryRead := by
  refine fun s addr haddr => ⟨fun hopen => ?_, fun hclosed => ?_⟩
  · exact hostMemRead_of_open haddr ((inOpenDst_iff s _).2 hopen)
  · refine hostMemRead_of_closed haddr fun hopen => ?_
    obtain ⟨w, hw, hin⟩ := (inOpenDst_iff s _).1 hopen
    exact hclosed w hw hin

/-- Settles O51: acceptance adds the interval, a read of STATUS drops all of them or none, and the invariant puts the
running command's interval among the open ones. -/
theorem busyIntervalIsForbidden : Obligations.BusyIntervalIsForbidden := by
  refine ⟨fun s c hidle => ?_, fun s => ?_, fun s addr v haddr => ?_⟩
  · exact ⟨_, hostRegWrite_idle (r := .cmd) hidle rfl c, acceptFromHost_unobserved s c⟩
  · exact ⟨_, rfl, observeStatus_unobserved { s with seen := .reg 0x04 (statusWord s) :: s.seen }⟩
  · have hrefused (hopen : ∃ w ∈ s.unobserved, w.src.contains addr.toNat ∨ w.dst.contains addr.toNat) :
        hostOp s (.memWrite addr v) = .refused (.windowHazard addr) :=
      hostMemWrite_of_open haddr ((inOpenWindow_iff s _).2 hopen) v
    exact ⟨hrefused, fun hinv hb hin => hrefused ⟨_, hinv.busyOpen hb, hin⟩⟩

end Sys2Proof.Machine
end

section
/-! PROOFS. Reset: its priority, the state it leaves, and the bytes it leaves alone (70_reset_and_hazards.md R121 to R123). -/

namespace Sys2Proof.Machine

theorem step_of_reset {s : State} (hreset : s.resetIn = true) : step s = .next (resetBlock s) := by
  rw [step, if_pos hreset]

/-- What becomes of the memory at a reset is what becomes of it when the command is abandoned. -/
@[simp] theorem resetBlock_mem (s : State) : (resetBlock s).mem = (abandonCommand s).mem := rfl
@[simp] theorem resetBlock_draws (s : State) : (resetBlock s).draws = (abandonCommand s).draws := rfl

/-- While IDLE there is no command to abandon. -/
theorem abandonCommand_idle {s : State} (hidle : s.phase = .idle) : abandonCommand s = s := by
  rw [abandonCommand, hidle]

/-- Reset gives the block its reset values; the memory, its size and what the model keeps of the host are not the block's
(70_reset_and_hazards.md R121, R124). -/
theorem resetBlock_eq (s : State) : resetBlock s = { State.reset with
    mem := (resetBlock s).mem, draws := (resetBlock s).draws, lastAddr := s.lastAddr, resetIn := (resetBlock s).resetIn
    turns := (resetBlock s).turns, unobserved := (resetBlock s).unobserved, program := (resetBlock s).program
    seen := (resetBlock s).seen } := by
  rw [← abandonCommand_lastAddr s]
  rfl

/-- Every register reads after a reset as it does right after power-on (70_reset_and_hazards.md R121). -/
theorem readReg_resetBlock (s : State) (r : Reg) : readReg (resetBlock s) r = readReg State.reset r := by
  cases r <;> rfl

/-- Settles O56: the reset input is looked at before whose turn it is, and an idle block abandons nothing. -/
theorem resetTakesPriority : Obligations.ResetTakesPriority := by
  intro s hreset
  refine ⟨resetBlock s, step_of_reset hreset, resetBlock_eq s, fun r => ?_, fun hidle => ?_⟩
  · rw [readReg_resetBlock]
    exact resetValuesOfTheBlock.1 r
  · rw [resetBlock_mem, resetBlock_draws, abandonCommand_idle hidle]
    exact ⟨rfl, rfl⟩

/-- SET_BIT alone has no exempt source bytes: its window is its own destination (70_reset_and_hazards.md R123). -/
theorem resetExempt_of_not_setBit {s : State} (h : s.latchedCmd ≠ 0x00000002) : resetExempt s = runningSrc s := by
  obtain ⟨-, hsetBit, -⟩ := onlyTheFiveWordsAreCommands s.latchedCmd
  unfold resetExempt
  split
  · next hd => exact absurd (hsetBit.1 hd) h
  · rfl

/-- An exempt byte stays as it was, whether or not the destination window holds it (log entry 4). -/
theorem abandonCommand_read_exempt {s : State} {a : Nat} (h : (resetExempt s).contains a) :
    (abandonCommand s).mem.read a = s.mem.read a := by
  unfold abandonCommand
  split
  · rfl
  · exact Memory.read_scramble_other _ _ _ (.inl h)

/-- Settles O57: only bytes of the destination window become free, and of those none that is exempt. -/
theorem resetWhileBusyKeepsOtherBytes : Obligations.ResetWhileBusyKeepsOtherBytes := by
  refine fun s _ => ⟨(abandonCommand_memoryChange s).outside, fun hcmd a hsrc => ?_⟩
  rw [← resetExempt_of_not_setBit hcmd] at hsrc
  rw [resetBlock_mem]
  exact abandonCommand_read_exempt hsrc

end Sys2Proof.Machine
end

section
/-! PROOFS. The core's turn comes: each turn of the list ends the command, leaves it under way with one turn fewer, or is
a move of the host that stops the run (70_reset_and_hazards.md R130; log entry 6). -/

namespace Sys2Proof.Machine

/-! ### What a move of the host leaves of a running command -/

/-- The command still runs, no reset is asserted, no turn is used, and at most a WAIT is put back in front of the host's
program (30_encoding.md R67). -/
structure HostLeavesRunning (s t : State) : Prop where
  busy : t.phase = .busy
  resetIn : t.resetIn = s.resetIn
  turns : t.turns = s.turns
  program : t.program ⊆ .wait :: s.program

section
variable {s t : State}

theorem HostLeavesRunning.of_eq (hb : s.phase = .busy) (h : t = { s with
    mem := t.mem, seen := t.seen, draws := t.draws, unobserved := t.unobserved }) : HostLeavesRunning s t := by
  rw [h]
  exact ⟨hb, rfl, rfl, List.subset_cons_self _ _⟩

theorem hostMemRead_leavesRunning {addr : Word} (hb : s.phase = .busy) (h : hostOp s (.memRead addr) = .next t) :
    HostLeavesRunning s t := by
  by_cases haddr : addr.toNat < memBytes s
  · by_cases hopen : inOpenDst s addr.toNat = true
    · cases (hostMemRead_of_open haddr hopen).symm.trans h
      exact .of_eq hb rfl
    · cases (hostMemRead_of_closed haddr hopen).symm.trans h
      exact .of_eq hb rfl
  · cases (hostMem_faults (Nat.le_of_not_lt haddr) 0).1.symm.trans h

theorem hostMemWrite_leavesRunning {addr : Word} {v : Byte} (hb : s.phase = .busy)
    (h : hostOp s (.memWrite addr v) = .next t) : HostLeavesRunning s t := by
  by_cases haddr : addr.toNat < memBytes s
  · by_cases hopen : inOpenWindow s addr.toNat = true
    · cases (hostMemWrite_of_open haddr hopen v).symm.trans h
    · cases (hostMemWrite_of_outside haddr hopen v).symm.trans h
      exact .of_eq hb rfl
  · cases (hostMem_faults (Nat.le_of_not_lt haddr) v).2.symm.trans h

/-- Register writes are ignored while BUSY, WAIT polls again, and of the rest only a reset would end the command. -/
theorem hostOp_leavesRunning {op : HostOp} (hb : s.phase = .busy) (hop : op ≠ .assertReset)
    (h : hostOp s op = .next t) : HostLeavesRunning s t := by
  cases op with
  | regRead offset bytes =>
    cases hr : accessedReg offset bytes with
    | none => cases (hostReg_refused hr 0).1.symm.trans h
    | some r =>
      obtain ⟨u, hu, hstate⟩ := hostRegRead_of_reg (s := s) hr
      cases hu.symm.trans h
      rw [hstate]
      exact .of_eq hb rfl
  | regWrite offset bytes c =>
    cases hr : accessedReg offset bytes with
    | none => cases (hostReg_refused hr c).2.symm.trans h
    | some r =>
      rw [hostRegWrite_of_reg hr, writeReg_busy hb] at h
      cases h
      exact .of_eq hb rfl
  | wait =>
    rw [hostOp, hostWait_of_busy hb] at h
    cases h
    exact ⟨hb, rfl, rfl, List.Subset.refl _⟩
  | memRead addr => exact hostMemRead_leavesRunning hb h
  | memWrite addr v => exact hostMemWrite_leavesRunning hb h
  | assertReset => exact absurd rfl hop

theorem hostStep_leavesRunning (hb : s.phase = .busy) (hprog : .assertReset ∉ s.program) (h : hostStep s = .next t) :
    HostLeavesRunning s t := by
  cases hops : s.program with
  | nil =>
    rw [hostStep, hops] at h
    cases h
    exact .of_eq hb rfl
  | cons op rest =>
    rw [hostStep_of_program hops] at h
    rw [hops, List.mem_cons, not_or] at hprog
    obtain ⟨hbusy, hreset, hturns, hsub⟩ :=
      hostOp_leavesRunning (s := { s with program := rest }) hb (Ne.symm hprog.1) h
    refine ⟨hbusy, hreset, hturns, List.Subset.trans hsub ?_⟩
    rw [hops]
    exact List.cons_subset_cons _ (List.subset_cons_self _ _)

end

/-! ### A command under way, turn by turn -/

/-- A command runs in a machine that meets the invariant, and no reset is asserted or pending. -/
structure UnderWay (s : State) : Prop where
  inv : s.Inv
  busy : s.phase = .busy
  notReset : s.resetIn = false
  noReset : .assertReset ∉ s.program

/-- The command has completed, or a move of the host stops the run here. -/
def CompletedOrHostStops (u : State) : Prop :=
  (u.phase = .idle ∧ u.done = true) ∨ (nextTurn u = .host ∧ ∀ v, step u ≠ .next v)

/-- At most `n` steps lead there. -/
def SettledWithin (n : Nat) (s : State) : Prop := ∃ k ≤ n, ∃ u, StepsTo k s u ∧ CompletedOrHostStops u

theorem CompletedOrHostStops.settledWithin {s : State} (h : CompletedOrHostStops s) (n : Nat) : SettledWithin n s :=
  ⟨0, Nat.zero_le n, s, rfl, h⟩

theorem SettledWithin.step {n : Nat} {s t : State} (h : SettledWithin n t) (ht : step s = .next t) :
    SettledWithin (n + 1) s := by
  obtain ⟨k, hk, u, hu, hend⟩ := h
  exact ⟨k + 1, Nat.succ_le_succ hk, u, ⟨t, ht, hu⟩, hend⟩

namespace UnderWay

variable {s t : State}

/-- The core step completes the command. -/
theorem step_core (h : UnderWay s) (hturn : nextTurn s = .core) :
    ∃ t, step s = .next t ∧ CompletedOrHostStops t := by
  obtain ⟨t, ht, hidle, hdone, -⟩ := everyAcceptedCommandCompletes s h.inv h.busy h.notReset hturn
  exact ⟨t, ht, .inl ⟨hidle, hdone⟩⟩

/-- An internal action completes the command, or leaves it under way. -/
theorem step_coreUnit (h : UnderWay s) (hturn : nextTurn s = .coreUnit) :
    ∃ t, step s = .next t ∧ (CompletedOrHostStops t ∨ (UnderWay t ∧ t.turns = s.turns.tail)) := by
  obtain ⟨t, ht, hout⟩ := coreUnit_answers (s := takeTurn s) h.busy h.inv.seqReady
  have hstep : step s = .next t := (step_of_coreUnit h.notReset hturn).trans ht
  refine ⟨t, hstep, ?_⟩
  cases hout with
  | ends hend => exact .inl (.inl ⟨hend.phase, hend.done⟩)
  | goesOn hgo =>
    have hframe := coreUnit_coreFrame ht
    exact .inr ⟨{
      inv := stepKeepsTheInvariant s t h.inv hstep
      busy := hgo.phase
      notReset := hframe.resetIn.trans h.notReset
      noReset := hframe.program ▸ h.noReset }, hframe.turns⟩

/-- A move of the host that answers leaves the command under way. -/
theorem step_host (h : UnderWay s) (hturn : nextTurn s = .host) (ht : step s = .next t) :
    UnderWay t ∧ t.turns = s.turns.tail := by
  have hhost : hostStep (takeTurn s) = .next t := by
    rw [← ht, step_of_not_reset h.notReset, hturn, move]
  obtain ⟨hbusy, hreset, hturns, hsub⟩ := hostStep_leavesRunning (s := takeTurn s) h.busy h.noReset hhost
  refine ⟨⟨stepKeepsTheInvariant s t h.inv ht, hbusy, hreset.trans h.notReset, fun hmem => ?_⟩, hturns⟩
  have hne : HostOp.assertReset ≠ .wait := nofun
  exact h.noReset (List.mem_of_ne_of_mem hne (hsub hmem))

/-- By induction on the list: a turn that does not settle the command leaves it under way with the rest of the list, and the
core's turn comes at the latest after the last one. -/
theorem settledWithin (h : UnderWay s) : SettledWithin (s.turns.length + 1) s := by
  induction hturns : s.turns generalizing s with
  | nil =>
    have hturn : nextTurn s = .core := by rw [nextTurn, hturns, h.busy]
    obtain ⟨t, ht, hend⟩ := h.step_core hturn
    exact (hend.settledWithin _).step ht
  | cons turn rest ih =>
    have hturn : nextTurn s = turn := by rw [nextTurn, hturns]
    have htail : s.turns.tail = rest := congrArg List.tail hturns
    cases turn with
    | host =>
      by_cases hnext : ∃ t, step s = .next t
      · obtain ⟨t, ht⟩ := hnext
        obtain ⟨hgo, hrest⟩ := h.step_host hturn ht
        exact (ih hgo (hrest.trans htail)).step ht
      · have hstops : CompletedOrHostStops s := .inr ⟨hturn, not_exists.1 hnext⟩
        exact hstops.settledWithin _
    | core =>
      obtain ⟨t, ht, hend⟩ := h.step_core hturn
      exact (hend.settledWithin _).step ht
    | coreUnit =>
      obtain ⟨t, ht, hend | ⟨hgo, hrest⟩⟩ := h.step_coreUnit hturn
      · exact (hend.settledWithin _).step ht
      · exact (ih hgo (hrest.trans htail)).step ht

end UnderWay

/-- Settles O49: the machine is one with its command under way. -/
theorem coreIsEventuallyTaken : Obligations.CoreIsEventuallyTaken := fun _ hinv hb hreset hprog =>
  UnderWay.settledWithin ⟨hinv, hb, hreset, hprog⟩

end Sys2Proof.Machine
end
